-- ==== Sys2Proof/Word.lean ====
section
/-! DEFINITION. The machine's word types (00_scope.md R5, R12): 32-bit words, 8-bit bytes, 5-bit register
indices. Addition, shift and bitwise or of words are `BitVec`'s own, which work modulo `2^32` as R12 says. -/

namespace Sys2Proof

/-- A `u32` (R12): a register value, an address or an instruction word. -/
abbrev Word := BitVec 32

/-- One byte of the boot-ROM image (20_memory.md R58). -/
abbrev Byte := BitVec 8

/-- A register index, "an integer in [0,31]" (10_state.md R21). R24 and D26: an index outside the range is
unrepresentable (log entry 26). -/
abbrev RegIdx := Fin 32

end Sys2Proof
end

