-- ==== Sys2Proof/Config.lean ====
section
/-! DEFINITION. The parameters of the core (00_scope.md R6, R7) and their default values. A parameter never
changes after construction (10_state.md R38). The machine reads them from the state it was constructed with
(log entry 29), so that a statement about every state holds for every choice of parameters. -/

namespace Sys2Proof

/-- A half-open address interval `[start, start + size)` (20_memory.md R51). `Nat`, not `Word`: the end of a
range may be `2^32` (00_scope.md R18). -/
structure Range where
  start : Nat
  size : Nat
deriving DecidableEq, Repr

/-- The four bus devices (20_memory.md R53). None has mutable storage. -/
inductive Device where
  | bootRom
  | memCtrl
  | ramSize
  | cacheCtrl
deriving DecidableEq, Repr

/-- One entry of the bus's ordered mapping list (20_memory.md R52). -/
structure Mapping where
  range : Range
  device : Device
deriving DecidableEq, Repr

/-- The parameters whose value the source does not state (00_scope.md R6, R7). -/
structure Config where
  /-- `BOOT_VECTOR`: `pc` at reset. -/
  bootVector : Word
  /-- `NOP_WORD`: `next_instruction` at reset. -/
  nopWord : Word
  /-- `REG_SENTINEL`: registers 1 to 31 at reset. -/
  regSentinel : Word
  /-- `ROM_BASE`, `ROM_SIZE`. -/
  rom : Range
  /-- `MEMCTRL_BASE`, `MEMCTRL_SIZE`. -/
  memCtrl : Range
  /-- `RAMSIZE_BASE`, `RAMSIZE_SIZE`. -/
  ramSize : Range
  /-- `CACHECTRL_BASE`, `CACHECTRL_SIZE`. -/
  cacheCtrl : Range
  /-- `EXP1_BASE_EXPECTED`: the one legal value of memory-control word 0. -/
  exp1BaseExpected : Word
  /-- `EXP2_BASE_EXPECTED`: the one legal value of memory-control word 1. -/
  exp2BaseExpected : Word
  /-- `OP_EXT`: the "extended" primary opcode. -/
  opExt : BitVec 6
  /-- `OP_J`. -/
  opJ : BitVec 6
  /-- `OP_SW`. -/
  opSw : BitVec 6
  /-- `FN_SLL`: a secondary opcode. -/
  fnSll : BitVec 6
  /-- `FN_OR`: a secondary opcode. -/
  fnOr : BitVec 6
deriving DecidableEq, Repr

/-- The defaults of 00_scope.md R6 and R7. PRESUMED: every one is marked there as general knowledge, and chosen
by D5 to D10 (log entries 5 to 10). Unsafe where the real core differs: a statement about a default is one about
these numbers only. -/
def Config.default : Config where
  bootVector := 0xBFC00000
  nopWord := 0x00000000
  regSentinel := 0xDEADBEEF
  rom := ⟨0xBFC00000, 0x00080000⟩
  memCtrl := ⟨0x1F801000, 0x24⟩
  ramSize := ⟨0x1F801060, 4⟩
  cacheCtrl := ⟨0xFFFE0130, 4⟩
  exp1BaseExpected := 0x1F000000
  exp2BaseExpected := 0x1F802000
  opExt := 0
  opJ := 2
  opSw := 43
  fnSll := 0
  fnOr := 37

/-- The primary opcode of ADDIU, fixed by the source's word `0x24640001` (00_scope.md R7). -/
def opAddiu : BitVec 6 := 0b001001

/-- The primary opcode of ORI, fixed by the source's word `0x342200FF` (00_scope.md R7). -/
def opOri : BitVec 6 := 0b001101

/-- The primary opcode of LUI, fixed by the source's word `0x3C011234` (00_scope.md R7). -/
def opLui : BitVec 6 := 0b001111

end Sys2Proof
end

