-- ==== Sys2Proof/Syntax.lean ====
section
/-! DEFINITION. The instruction set (00_scope.md R2): one constructor per row of spec/opcode_table.json. Operands
stand in the order of the assembler forms (30_encoding.md R110). A field an instruction does not use (R106) is
no part of it: every value of that field decodes to the same instruction. Register numbers, immediates, shift
amounts and jump targets have exactly the widths of R5, so every term of `Instr` is well formed. -/

namespace Sys2Proof

/-- One instruction of the core (40_step_dispatch.md R126). -/
inductive Instr where
  /-- `lui $rt, imm` (R140). -/
  | lui (rt : RegIdx) (imm : BitVec 16)
  /-- `ori $rt, $rs, imm` (R141). -/
  | ori (rt rs : RegIdx) (imm : BitVec 16)
  /-- `addiu $rt, $rs, simm` (R142). -/
  | addiu (rt rs : RegIdx) (imm : BitVec 16)
  /-- `sll $rd, $rt, shamt` (R150). -/
  | sll (rd rt : RegIdx) (shamt : BitVec 5)
  /-- `or $rd, $rs, $rt` (R151). -/
  | or (rd rs rt : RegIdx)
  /-- `sw $rt, offset($base)` (R160). -/
  | sw (rt : RegIdx) (offset : BitVec 16) (base : RegIdx)
  /-- `j target`, a 26-bit word index (R170). -/
  | j (target : BitVec 26)
deriving DecidableEq, Repr

end Sys2Proof
end

