-- ==== Sys2Proof/WellFormed.lean ====
section
/-! DEFINITION. Well-formedness. An `Instr` needs no check: its operand types admit no bad value (10_state.md
R24, D26). What can be ill formed is a choice of parameters (00_scope.md R18) and an instruction written by
hand in assembler form (30_encoding.md R110); both are checked here. The last constraint of R18, on `NOP_WORD`,
needs the decoder and stands in Decode.lean (`Config.valid`). -/

namespace Sys2Proof

/-- R18, second row: base and size are multiples of 4, the size is positive, the end is at most `2^32`. -/
def Range.wellFormed (r : Range) : Bool :=
  decide (r.start % 4 = 0) && decide (r.size % 4 = 0) && decide (0 < r.size)
    && decide (r.start + r.size ≤ 2 ^ 32)

/-- Two half-open ranges with no address in common (10_state.md R41). -/
def Range.disjoint (a b : Range) : Bool :=
  decide (a.start + a.size ≤ b.start) || decide (b.start + b.size ≤ a.start)

/-- R18, third row: the four ranges are pairwise disjoint. -/
def Config.rangesDisjoint (c : Config) : Bool :=
  c.rom.disjoint c.memCtrl && c.rom.disjoint c.ramSize && c.rom.disjoint c.cacheCtrl
    && c.memCtrl.disjoint c.ramSize && c.memCtrl.disjoint c.cacheCtrl && c.ramSize.disjoint c.cacheCtrl

/-- R18, sixth row: the primary opcodes are six different values, the secondary opcodes two. -/
def Config.opcodesDistinct (c : Config) : Bool :=
  decide [c.opExt, c.opJ, opAddiu, opOri, opLui, c.opSw].Nodup && decide [c.fnSll, c.fnOr].Nodup

/-- The constraints of 00_scope.md R18 on the parameters, but for the one on `NOP_WORD`. -/
def Config.wellFormed (c : Config) : Bool :=
  decide (c.bootVector.toNat % 4 = 0)
    && c.rom.wellFormed && c.memCtrl.wellFormed && c.ramSize.wellFormed && c.cacheCtrl.wellFormed
    && c.rangesDisjoint && decide (8 ≤ c.memCtrl.size) && c.opcodesDistinct

/-- An instruction as written in an assembler listing (30_encoding.md R110, R111; D23, log entry 23): operands
are numbers that may be out of range. -/
inductive Asm where
  | lui (rt imm : Nat)
  | ori (rt rs imm : Nat)
  | addiu (rt rs : Nat) (simm : Int)
  | sll (rd rt shamt : Nat)
  | or (rd rs rt : Nat)
  | sw (rt : Nat) (offset : Int) (base : Nat)
  /-- `addr` is the byte address jumped to. -/
  | j (addr : Nat)
  /-- The one pseudo-instruction (R111). -/
  | nop
deriving DecidableEq, Repr

/-- A register number `$n`. -/
def asmReg (n : Nat) : Bool := decide (n < 32)

/-- `imm` 0 .. 0xFFFF (R110). -/
def asmUImm (n : Nat) : Bool := decide (n ≤ 0xFFFF)

/-- `simm`, `offset` -32768 .. 32767 (R110). -/
def asmSImm (n : Int) : Bool := decide (-32768 ≤ n) && decide (n ≤ 32767)

/-- The operand ranges of R110. `next` is the address of the instruction after this one, whose bits 31:28 a
jump's address must share. -/
def Asm.wellFormed (next : Word) : Asm → Bool
  | .lui rt imm => asmReg rt && asmUImm imm
  | .ori rt rs imm => asmReg rt && asmReg rs && asmUImm imm
  | .addiu rt rs simm => asmReg rt && asmReg rs && asmSImm simm
  | .sll rd rt shamt => asmReg rd && asmReg rt && decide (shamt < 32)
  | .or rd rs rt => asmReg rd && asmReg rs && asmReg rt
  | .sw rt offset base => asmReg rt && asmSImm offset && asmReg base
  | .j addr => decide (addr % 4 = 0) && decide (addr / 2 ^ 28 = next.toNat / 2 ^ 28)
  | .nop => true

end Sys2Proof
end

