-- ==== Sys2Proof/Decode.lean ====
section
/-! DEFINITION. The Instruction Decoder (30_encoding.md): the field functions, the two opcode maps, the decoder,
the encoder written from the same layouts (R91), and the assembler of R110. The decoder is pure and total
(R101); a word that is no instruction is rejected by name (R104, R105). -/

namespace Sys2Proof

/-- The seven mnemonics (00_scope.md R2), as a trace record holds them (10_state.md R40). -/
inductive Mnemonic where
  | lui | ori | addiu | sll | or | sw | j
deriving DecidableEq, Repr

/-- The named variants of the primary opcode enumeration (R102). -/
inductive PrimaryOp where
  | ext | j | addiu | ori | lui | sw
deriving DecidableEq, Repr

/-- The named variants of the secondary opcode enumeration (R103). -/
inductive SecondaryOp where
  | sll | or
deriving DecidableEq, Repr

/-- Why a word is no instruction (R108). -/
inductive DecodeError where
  /-- `primary_opcode` is unknown (R104). -/
  | unknownPrimary
  /-- `op` is `OP_EXT` and `secondary_opcode` is unknown (R105). -/
  | unknownSecondary
deriving DecidableEq, Repr

/-- Why a list of bytes does not start with an instruction. -/
inductive ByteError where
  /-- An instruction is four bytes (R90). -/
  | fewerThanFourBytes
  /-- The first four bytes are a word that is no instruction. -/
  | notAnInstruction (why : DecodeError)
deriving DecidableEq, Repr

/-! ### Field functions (R92 to R100), defined for every word -/

/-- `op(w) = w[31:26]` (R92). -/
def opOf (w : Word) : BitVec 6 := w.extractLsb' 26 6

/-- `fn(w) = w[5:0]` (R93). -/
def fnOf (w : Word) : BitVec 6 := w.extractLsb' 0 6

/-- `rs(w) = w[25:21]`, also the `base` field (R94). -/
def rsOf (w : Word) : RegIdx := (w.extractLsb' 21 5).toFin

/-- `rt(w) = w[20:16]` (R95). -/
def rtOf (w : Word) : RegIdx := (w.extractLsb' 16 5).toFin

/-- `rd(w) = w[15:11]` (R96). -/
def rdOf (w : Word) : RegIdx := (w.extractLsb' 11 5).toFin

/-- `imm(w) = w[15:0]` (R97). -/
def immOf (w : Word) : BitVec 16 := w.extractLsb' 0 16

/-- `sext_32(v)` of a 16-bit value (00_scope.md R13). -/
def sext32 (v : BitVec 16) : Word := v.signExtend 32

/-- `zext_32(v)` of a 16-bit value (00_scope.md R13). -/
def zext32 (v : BitVec 16) : Word := v.setWidth 32

/-- `simm(w) = sext_32(w[15:0])` (R98). -/
def simmOf (w : Word) : Word := sext32 (immOf w)

/-- `shamt(w) = w[10:6]` (R99). -/
def shamtOf (w : Word) : BitVec 5 := w.extractLsb' 6 5

/-- `target(w) = w[25:0]` (R100). -/
def targetOf (w : Word) : BitVec 26 := w.extractLsb' 0 26

/-! ### The opcode maps (R102, R103): ordered mapping tables from opcode value to class -/

/-- The primary opcode table (R102, 40_step_dispatch.md R124). -/
def Config.primaryTable (c : Config) : List (BitVec 6 × PrimaryOp) :=
  [(c.opExt, .ext), (c.opJ, .j), (opAddiu, .addiu), (opOri, .ori), (opLui, .lui), (c.opSw, .sw)]

/-- The secondary opcode table (R103, 40_step_dispatch.md R124). -/
def Config.secondaryTable (c : Config) : List (BitVec 6 × SecondaryOp) :=
  [(c.fnSll, .sll), (c.fnOr, .or)]

/-- `primary_opcode(w)`; `none` is "unknown" (R102). -/
def primaryOpcode (c : Config) (w : Word) : Option PrimaryOp := c.primaryTable.lookup (opOf w)

/-- `secondary_opcode(w)`; `none` is "unknown" (R103). -/
def secondaryOpcode (c : Config) (w : Word) : Option SecondaryOp := c.secondaryTable.lookup (fnOf w)

/-- The instruction a word encodes, or why it is none (40_step_dispatch.md R124). -/
def decode (c : Config) (w : Word) : Except DecodeError Instr :=
  match primaryOpcode c w with
  | some .lui => .ok (.lui (rtOf w) (immOf w))
  | some .ori => .ok (.ori (rtOf w) (rsOf w) (immOf w))
  | some .addiu => .ok (.addiu (rtOf w) (rsOf w) (immOf w))
  | some .sw => .ok (.sw (rtOf w) (immOf w) (rsOf w))
  | some .j => .ok (.j (targetOf w))
  | some .ext =>
    match secondaryOpcode c w with
    | some .sll => .ok (.sll (rdOf w) (rtOf w) (shamtOf w))
    | some .or => .ok (.or (rdOf w) (rsOf w) (rtOf w))
    | none => .error .unknownSecondary
  | none => .error .unknownPrimary

/-! ### Bytes (R90; 20_memory.md R58): least significant byte first -/

/-- The word whose bytes, lowest address first, are `b0 b1 b2 b3` (20_memory.md R58). -/
def wordOfBytes (b0 b1 b2 b3 : Byte) : Word := b3 ++ b2 ++ b1 ++ b0

/-- The four bytes of a word in the order they lie in the ROM (R90). -/
def bytesOfWord (w : Word) : List Byte :=
  [w.extractLsb' 0 8, w.extractLsb' 8 8, w.extractLsb' 16 8, w.extractLsb' 24 8]

/-- The first instruction of a list of bytes and the bytes after it (R90). -/
def decodeBytes (c : Config) : List Byte → Except ByteError (Instr × List Byte)
  | b0 :: b1 :: b2 :: b3 :: rest =>
    match decode c (wordOfBytes b0 b1 b2 b3) with
    | .ok i => .ok (i, rest)
    | .error e => .error (.notAnInstruction e)
  | _ => .error .fewerThanFourBytes

/-- The host's question: the instruction the decoder reads from the bits `w` of an opcode-table row. Every
instruction is one 32-bit word, so bits above `nbits` are 0 and the word's bytes go to `decodeBytes`. -/
def decodeTableWord (nbits w : Nat) : Option Instr :=
  match decodeBytes Config.default (bytesOfWord (BitVec.ofNat 32 (w % 2 ^ nbits))) with
  | .ok (i, _) => some i
  | .error _ => none

/-! ### The encoder: the layouts of R91, unused fields 0 (R110) -/

/-- A register index as a 5-bit field. -/
def regBits (r : RegIdx) : BitVec 5 := BitVec.ofNat 5 r.val

/-- Layout I (R91): op, rs, rt, imm. -/
def layoutI (op : BitVec 6) (rs rt : BitVec 5) (imm : BitVec 16) : Word := op ++ rs ++ rt ++ imm

/-- Layout R (R91): op, rs, rt, rd, shamt, fn. -/
def layoutR (op : BitVec 6) (rs rt rd shamt : BitVec 5) (fn : BitVec 6) : Word :=
  op ++ rs ++ rt ++ rd ++ shamt ++ fn

/-- Layout J (R91): op, target. -/
def layoutJ (op : BitVec 6) (target : BitVec 26) : Word := op ++ target

/-- The word that encodes an instruction, its unused fields 0 (R91, R107, R110). -/
def encode (c : Config) : Instr → Word
  | .lui rt imm => layoutI opLui 0 (regBits rt) imm
  | .ori rt rs imm => layoutI opOri (regBits rs) (regBits rt) imm
  | .addiu rt rs imm => layoutI opAddiu (regBits rs) (regBits rt) imm
  | .sll rd rt shamt => layoutR c.opExt 0 (regBits rt) (regBits rd) shamt c.fnSll
  | .or rd rs rt => layoutR c.opExt (regBits rs) (regBits rt) (regBits rd) 0 c.fnOr
  | .sw rt offset base => layoutI c.opSw (regBits base) (regBits rt) offset
  | .j target => layoutJ c.opJ target

/-- The mnemonic of an instruction. -/
def Instr.mnemonic : Instr → Mnemonic
  | .lui _ _ => .lui
  | .ori _ _ _ => .ori
  | .addiu _ _ _ => .addiu
  | .sll _ _ _ => .sll
  | .or _ _ _ => .or
  | .sw _ _ _ => .sw
  | .j _ => .j

/-! ### The map as match and mask over the word (R107) -/

/-- The `mask` column of R107. -/
def opcodeMask : Mnemonic → Word
  | .sll => 0xFC00003F
  | .or => 0xFC00003F
  | .j => 0xFC000000
  | .addiu => 0xFC000000
  | .ori => 0xFC000000
  | .lui => 0xFC000000
  | .sw => 0xFC000000

/-- The `match` column of R107, for any choice of the opcode parameters: the opcode fields, all else 0. -/
def Config.opcodeMatch (c : Config) : Mnemonic → Word
  | .sll => layoutR c.opExt 0 0 0 0 c.fnSll
  | .or => layoutR c.opExt 0 0 0 0 c.fnOr
  | .j => layoutJ c.opJ 0
  | .addiu => layoutI opAddiu 0 0 0
  | .ori => layoutI opOri 0 0 0
  | .lui => layoutI opLui 0 0 0
  | .sw => layoutI c.opSw 0 0 0

/-- The bits of a word its instruction does not use (R106): `rs` for LUI and SLL, `shamt` for OR. -/
def unusedMask : Mnemonic → Word
  | .sll => 0x03E00000
  | .lui => 0x03E00000
  | .or => 0x000007C0
  | .j => 0
  | .addiu => 0
  | .ori => 0
  | .sw => 0

/-! ### The no-operation and the last constraint of R18 -/

/-- Instructions that leave the whole machine as it is, whatever the registers hold: the destination is register
0 (R109), or a register is written back with its own value. J and SW are none (D6). -/
def Instr.isNoOp : Instr → Bool
  | .lui rt _ => decide (rt = 0)
  | .ori rt rs imm => decide (rt = 0) || (decide (rt = rs) && decide (imm = 0))
  | .addiu rt rs imm => decide (rt = 0) || (decide (rt = rs) && decide (imm = 0))
  | .sll rd rt shamt => decide (rd = 0) || (decide (rd = rt) && decide (shamt = 0))
  | .or rd rs rt =>
    decide (rd = 0) || (decide (rd = rs) && decide (rt = rs)) || (decide (rd = rs) && decide (rt = 0))
      || (decide (rd = rt) && decide (rs = 0))
  | .sw _ _ _ => false
  | .j _ => false

/-- R18, last row: `NOP_WORD` decodes to an instruction that changes nothing (log entry 32). -/
def Config.nopWordIsNoOp (c : Config) : Bool :=
  match decode c c.nopWord with
  | .ok i => i.isNoOp
  | .error _ => false

/-- Every constraint of 00_scope.md R18 on the parameters. (The ROM image's length is checked where the core is
constructed, `Machine.State.construct?`.) -/
def Config.valid (c : Config) : Bool := c.wellFormed && c.nopWordIsNoOp

/-! ### The assembler (R110, R111) -/

/-- The instruction a line of a listing stands for; meaningful where `Asm.wellFormed` holds. -/
def Asm.toInstr : Asm → Instr
  | .lui rt imm => .lui (Fin.ofNat 32 rt) (BitVec.ofNat 16 imm)
  | .ori rt rs imm => .ori (Fin.ofNat 32 rt) (Fin.ofNat 32 rs) (BitVec.ofNat 16 imm)
  | .addiu rt rs simm => .addiu (Fin.ofNat 32 rt) (Fin.ofNat 32 rs) (BitVec.ofInt 16 simm)
  | .sll rd rt shamt => .sll (Fin.ofNat 32 rd) (Fin.ofNat 32 rt) (BitVec.ofNat 5 shamt)
  | .or rd rs rt => .or (Fin.ofNat 32 rd) (Fin.ofNat 32 rs) (Fin.ofNat 32 rt)
  | .sw rt offset base => .sw (Fin.ofNat 32 rt) (BitVec.ofInt 16 offset) (Fin.ofNat 32 base)
  | .j addr => .j (BitVec.ofNat 26 (addr / 4))
  | .nop => .sll 0 0 0

/-- The word an assembler emits (R110). -/
def Asm.assemble (c : Config) (a : Asm) : Word := encode c a.toInstr

end Sys2Proof
end

