-- ==== Sys2Proof/Machine/State.lean ====
section
/-! DEFINITION. The state record (10_state.md R20), the faults (60_exceptions.md R180) and the state after reset
(10_state.md R39). State is plain data. The configuration registers have no storage (R35), so they are no
field. -/

namespace Sys2Proof.Machine

/-- The five faults, with their payloads (60_exceptions.md R180 to R185; D15, log entry 15). A step that raises
one answers a NEXT state whose `fault` field holds it (10_state.md R37, log entry 1); `Host.Outcome.fault` is
the answer of `step` on a state that is already faulted (40_step_dispatch.md R121, log entry 25). Safe: the
machine stops where a real one might go on. -/
inductive Fault where
  /-- (1) A load or store address is no multiple of 4. Raised by `load32` and `store32` (R181), so by SW. -/
  | unalignedAddress (addr : Word)
  /-- (2) No device claims the address, or its device does not take the access. Raised by the fetch and by SW
  (R182). -/
  | unmappedAddress (addr : Word)
  /-- (3) A memory-control word written with a value that is not its legal one. Raised by SW (R183). -/
  | invalidConfigurationWrite (addr val : Word)
  /-- (4) Unknown primary opcode. Raised by dispatch, when the word is executed (R184). -/
  | unknownInstruction (word : Word)
  /-- (5) Unknown secondary opcode under the extended primary opcode. Raised by dispatch (R185). -/
  | unknownSecondaryOpInstruction (word : Word)
deriving DecidableEq, Repr

/-- Refusals. No meaning of this model refuses, so none is ever answered. -/
inductive Refusal where
  /-- An instruction without a meaning, rejected by name in `exec`. Safe. No arm of `exec` answers it. -/
  | notModelled (mnemonic : String)
deriving DecidableEq, Repr

/-- One trace record (10_state.md R40): the executed word and its mnemonic. The two strings of the source's
entry are left out (00_scope.md R4; D4, log entry 4). -/
structure TraceRecord where
  word : Word
  mnemonic : Mnemonic
deriving DecidableEq, Repr

/-- The state record `S` of 10_state.md R20, with the construction-time data of R38 (log entry 29). -/
structure State where
  /-- `S.x` (R21). Read and written through `getReg` and `setReg` only. -/
  regs : Vector Word 32
  /-- `S.pc` (R27): the fetch pointer at the start of a step. -/
  pc : Word
  /-- `S.next_instruction` (R31): the word fetched by the previous step, executed by this one. -/
  nextInstruction : Word
  /-- `S.fault` (R37): what the last step ended with. -/
  fault : Option Fault
  /-- `S.trace` (R40): oldest record first. -/
  trace : List TraceRecord
  /-- The boot-ROM image (R38; 00_scope.md R9), by address; no step writes it. -/
  mem : List Host.Cell
  /-- The parameters of 00_scope.md R6 and R7; no step writes them. -/
  config : Config
deriving DecidableEq, Repr

/-- The state after reset (R39, 70_reset_and_hazards.md R210) of a core constructed with parameters `c` and the
ROM image `rom`. -/
def State.resetWith (c : Config) (rom : List Host.Cell) : State where
  regs := (Vector.replicate 32 c.regSentinel).set 0 0
  pc := c.bootVector
  nextInstruction := c.nopWord
  fault := none
  trace := []
  mem := rom
  config := c

/-- The state after reset with the default parameters and no byte of the image listed: an image of zeros (DESIGN
CHOICE, log entry 31; the source supplies the image from outside, R212). -/
def State.reset : State := State.resetWith Config.default []

end Sys2Proof.Machine
end

