-- ==== Sys2Proof/Machine/Ops.lean ====
section
/-! DEFINITION. The named operations over registers, memory, the bus, the program counter and the pending-fetch
slot, and raising a fault. Each piece of state is read and written here and nowhere else. -/

namespace Sys2Proof.Machine

/-! ### Registers (10_state.md R22, R23) -/

/-- Register read `x[i]`: register 0 is 0, always (R22). -/
def State.getReg (s : State) (i : RegIdx) : Word := if i = 0 then 0 else s.regs[i]

/-- Register write `x[i] <- v`: a write to register 0 is discarded (R23). -/
def State.setReg (s : State) (i : RegIdx) (v : Word) : State :=
  if i = 0 then s else { s with regs := s.regs.set i v }

/-! ### Program counter (10_state.md R27) -/

/-- `pc <- v`. -/
def State.setPc (s : State) (v : Word) : State := { s with pc := v }

/-- `pc_now` as an executing instruction sees it: the step has already written `pc_now + 4` to `pc`
(40_step_dispatch.md R120 step 3), modulo `2^32`, so `pc_now` is `pc - 4` (log entry 18). -/
def State.pcNow (s : State) : Word := s.pc - 4

/-! ### Storage: the bytes of the ROM image, by address (20_memory.md R58) -/

/-- What an address with no entry reads as: the ROM image's other bytes are 0 (log entry 31). -/
def Memory.unlisted : Byte := 0

/-- The byte at an address. -/
def Memory.readByte : List Host.Cell → Nat → Byte
  | [], _ => Memory.unlisted
  | (b, v) :: rest, a => if a = b then v else Memory.readByte rest a

/-- Put a byte at an address, keeping the canonical form. It prepares an image before a core is constructed; no
step calls it, since there is no writable storage (10_state.md R36). -/
def Memory.writeByte : List Host.Cell → Nat → Byte → List Host.Cell
  | [], a, v => if v = Memory.unlisted then [] else [(a, v)]
  | (b, x) :: rest, a, v =>
    if a < b then (if v = Memory.unlisted then (b, x) :: rest else (a, v) :: (b, x) :: rest)
    else if a = b then (if v = Memory.unlisted then rest else (a, v) :: rest)
    else (b, x) :: Memory.writeByte rest a v

/-- Every address of the list lies above `lo`, addresses strictly rise, no entry holds the unlisted value. -/
def Memory.risesFrom : Nat → List Host.Cell → Bool
  | _, [] => true
  | lo, (a, v) :: rest => decide (lo ≤ a) && decide (v ≠ Memory.unlisted) && Memory.risesFrom (a + 1) rest

/-- The canonical form of storage. -/
def Memory.wf (m : List Host.Cell) : Bool := Memory.risesFrom 0 m

/-- Every listed address lies in the boot ROM's range: there is no other storage (10_state.md R36). -/
def Memory.within (r : Range) (m : List Host.Cell) : Bool :=
  m.all fun cell => decide (r.start ≤ cell.1) && decide (cell.1 < r.start + r.size)

/-- The canonical storage that holds the bytes of an image from `base` on. -/
def Memory.ofImage : Nat → List Byte → List Host.Cell
  | _, [] => []
  | base, b :: bs =>
    if b = Memory.unlisted then Memory.ofImage (base + 1) bs else (base, b) :: Memory.ofImage (base + 1) bs

/-- The 32-bit word of the four bytes from `a` on, least significant byte first (20_memory.md R58, R64). -/
def Memory.readWord (m : List Host.Cell) (a : Nat) : Word :=
  wordOfBytes (Memory.readByte m a) (Memory.readByte m (a + 1)) (Memory.readByte m (a + 2))
    (Memory.readByte m (a + 3))

/-- The byte of a state's storage at an address. -/
def State.readByte (s : State) (a : Nat) : Byte := Memory.readByte s.mem a

/-- Construction (70_reset_and_hazards.md R210, R212): a core exists only for an image of exactly `ROM_SIZE`
bytes (00_scope.md R9; D17, log entry 17). -/
def State.construct? (c : Config) (image : List Byte) : Option State :=
  if image.length = c.rom.size then some (State.resetWith c (Memory.ofImage c.rom.start image)) else none

/-! ### The bus (20_memory.md) -/

/-- Membership in a half-open range, the AND form (R51, 90_conflicts.md C3), on unsigned addresses. -/
def rangeContains (r : Range) (a : Word) : Bool :=
  decide (r.start ≤ a.toNat) && decide (a.toNat < r.start + r.size)

/-- The device list in the spec's priority order (R53). -/
def busMappings (c : Config) : List Mapping :=
  [⟨c.rom, .bootRom⟩, ⟨c.memCtrl, .memCtrl⟩, ⟨c.ramSize, .ramSize⟩, ⟨c.cacheCtrl, .cacheCtrl⟩]

/-- The first mapping whose range contains the address (R52). -/
def findMapping (ms : List Mapping) (a : Word) : Option Mapping := ms.find? fun m => rangeContains m.range a

/-- A device's read handler: the word from the image for the boot ROM (R58); the configuration devices do not
read (R63; D11, log entry 11). `off` is the range-relative offset of `a`. -/
def deviceRead (s : State) (a : Word) (off : Nat) : Device → Except Fault Word
  | .bootRom => .ok (Memory.readWord s.mem (s.config.rom.start + off))
  | .memCtrl => .error (.unmappedAddress a)
  | .ramSize => .error (.unmappedAddress a)
  | .cacheCtrl => .error (.unmappedAddress a)

/-- A device's write handler: the ROM takes no write (R59; D12, log entry 12); memory control validates its words
0 and 1 and accepts the others (R60; D10, log entry 10); the two other registers accept anything (R61, R62). An
accepted write changes no state. -/
def deviceWrite (s : State) (a : Word) (off : Nat) (val : Word) : Device → Except Fault State
  | .bootRom => .error (.unmappedAddress a)
  | .memCtrl =>
    if off = 0 ∧ val ≠ s.config.exp1BaseExpected then .error (.invalidConfigurationWrite a val)
    else if off = 4 ∧ val ≠ s.config.exp2BaseExpected then .error (.invalidConfigurationWrite a val)
    else .ok s
  | .ramSize => .ok s
  | .cacheCtrl => .ok s

/-- `load32(addr)` (R56): alignment first, then the range scan. It writes no state. -/
def State.load32 (s : State) (a : Word) : Except Fault Word :=
  if a.toNat % 4 ≠ 0 then .error (.unalignedAddress a)
  else
    match findMapping (busMappings s.config) a with
    | some m => deviceRead s a (a.toNat - m.range.start) m.device
    | none => .error (.unmappedAddress a)

/-- `store32(addr, val)` (R57): alignment first, then the range scan. It answers the state after an accepted
store. -/
def State.store32 (s : State) (a val : Word) : Except Fault State :=
  if a.toNat % 4 ≠ 0 then .error (.unalignedAddress a)
  else
    match findMapping (busMappings s.config) a with
    | some m => deviceWrite s a (a.toNat - m.range.start) val m.device
    | none => .error (.unmappedAddress a)

/-! ### Faults (60_exceptions.md R186, R190) -/

/-- `raise F`: the fault field is set and nothing else changes; nothing is saved and nothing is vectored (R190).
There is no return from a fault (R191), so no operation stands beside this one. -/
def State.raise (s : State) (f : Fault) : State := { s with fault := some f }

/-- The ordinal of a fault where a number is wanted (R180; D22, log entry 22). -/
def Fault.ordinal : Fault → Nat
  | .unalignedAddress _ => 1
  | .unmappedAddress _ => 2
  | .invalidConfigurationWrite _ _ => 3
  | .unknownInstruction _ => 4
  | .unknownSecondaryOpInstruction _ => 5

/-! ### The step's own writes (40_step_dispatch.md R120) -/

/-- The pending-fetch slot takes a word (R120 step 2). -/
def State.setPending (s : State) (w : Word) : State := { s with nextInstruction := w }

/-- The writes of steps 2 and 3 of R120 for a fetched word: it goes to the pending-fetch slot and `pc` advances
by 4, modulo `2^32` (10_state.md R29; D13, log entry 13). -/
def State.fetched (s : State) (w : Word) : State := (s.setPending w).setPc (s.pc + 4)

/-- Steps 2 and 3 of R120: the fetch at `pc` by `load32` (R122), and its writes. -/
def State.fetch (s : State) : Except Fault State :=
  match s.load32 s.pc with
  | .ok w => .ok (s.fetched w)
  | .error f => .error f

/-- Step 5 of R120: the record of an executed instruction is appended, unless it faulted (R127; D4, log
entry 4). -/
def State.record (s : State) (word : Word) (m : Mnemonic) : State :=
  match s.fault with
  | none => { s with trace := s.trace ++ [⟨word, m⟩] }
  | some _ => s

end Sys2Proof.Machine
end

