-- ==== Sys2Proof/Machine/Operands.lean ====
section
/-! DEFINITION. The operand forms of the seven instructions: register, zero-extended immediate, sign-extended
immediate, upper immediate, base plus displacement, jump target. -/

namespace Sys2Proof.Machine

/-- The upper immediate of LUI, `imm << 16` (41_alu_immediate.md R140). -/
def upperImm (imm : BitVec 16) : Word := zext32 imm <<< 16

/-- The effective address of SW, `x[base] + sext(offset)` modulo `2^32` (43_store.md R160; D13, log entry 13). -/
def effectiveAddress (s : State) (base : RegIdx) (offset : BitVec 16) : Word := s.getReg base + sext32 offset

/-- The target address of J: bits 31:28 of `pc_now`, then the index, then 00 (44_jump.md R170). -/
def jumpTarget (pcNow : Word) (target : BitVec 26) : Word :=
  (pcNow &&& (0xF0000000 : Word)) ||| ((target.setWidth 32 : Word) <<< 2)

end Sys2Proof.Machine
end

