-- ==== Sys2Proof/Machine/Flags.lean ====
section
/-! DEFINITION. The arithmetic of the core. There are no status flags, condition codes or predicates (10_state.md
R33): each function answers a word and nothing else, and a carry, an overflow or a bit shifted out is recorded
nowhere (41_alu_immediate.md R143, 42_alu_register.md R152). -/

namespace Sys2Proof.Machine

/-- Wrap-around addition modulo `2^32` (00_scope.md R12; 41_alu_immediate.md R142). -/
def aluAdd (a b : Word) : Word := a + b

/-- Bitwise or (41_alu_immediate.md R141, 42_alu_register.md R151). -/
def aluOr (a b : Word) : Word := a ||| b

/-- Logical shift left by 0 to 31, zero-filling, bits above bit 31 lost (42_alu_register.md R150). -/
def aluShiftLeft (a : Word) (shamt : BitVec 5) : Word := a <<< shamt.toNat

end Sys2Proof.Machine
end

