-- ==== Sys2Proof/Machine/AluImmediate.lean ====
section
/-! DEFINITION. LUI, ORI, ADDIU (41_alu_immediate.md). None faults and none touches `pc` or memory. -/

namespace Sys2Proof.Machine

/-- LUI (R140): `x[rt] <- imm << 16`. -/
def execLui (rt : RegIdx) (imm : BitVec 16) (s : State) : Host.Outcome State Fault Refusal :=
  .next (s.setReg rt (upperImm imm))

/-- ORI (R141): `x[rt] <- x[rs] | zext_32(imm)`. -/
def execOri (rt rs : RegIdx) (imm : BitVec 16) (s : State) : Host.Outcome State Fault Refusal :=
  .next (s.setReg rt (aluOr (s.getReg rs) (zext32 imm)))

/-- ADDIU (R142): `x[rt] <- (x[rs] + simm) mod 2^32`, never a fault. -/
def execAddiu (rt rs : RegIdx) (imm : BitVec 16) (s : State) : Host.Outcome State Fault Refusal :=
  .next (s.setReg rt (aluAdd (s.getReg rs) (sext32 imm)))

end Sys2Proof.Machine
end

