-- ==== Sys2Proof/Machine/AluRegister.lean ====
section
/-! DEFINITION. SLL, OR (42_alu_register.md). Neither faults nor touches `pc` or memory. -/

namespace Sys2Proof.Machine

/-- SLL (R150): `x[rd] <- (x[rt] << shamt) mod 2^32`. -/
def execSll (rd rt : RegIdx) (shamt : BitVec 5) (s : State) : Host.Outcome State Fault Refusal :=
  .next (s.setReg rd (aluShiftLeft (s.getReg rt) shamt))

/-- OR (R151): `x[rd] <- x[rs] | x[rt]`. -/
def execOr (rd rs rt : RegIdx) (s : State) : Host.Outcome State Fault Refusal :=
  .next (s.setReg rd (aluOr (s.getReg rs) (s.getReg rt)))

end Sys2Proof.Machine
end

