-- ==== Sys2Proof/Machine/Jump.lean ====
section
/-! DEFINITION. J (44_jump.md). The delay slot is the step order's doing (R171), not the instruction's. -/

namespace Sys2Proof.Machine

/-- J (R170): `pc <- (pc_now & 0xF0000000) | (target << 2)`, over the `pc_now + 4` the step has written. The
target is not checked for being mapped. -/
def execJ (target : BitVec 26) (s : State) : Host.Outcome State Fault Refusal :=
  .next (s.setPc (jumpTarget s.pcNow target))

end Sys2Proof.Machine
end

