-- ==== Sys2Proof/Machine/Store.lean ====
section
/-! DEFINITION. SW (43_store.md). -/

namespace Sys2Proof.Machine

/-- SW (R160): `store32(x[base] + simm, x[rt])`. A bus fault is raised and the instruction has no other effect
(40_step_dispatch.md R128 (b)); an accepted store changes no state. -/
def execSw (rt : RegIdx) (offset : BitVec 16) (base : RegIdx) (s : State) : Host.Outcome State Fault Refusal :=
  match s.store32 (effectiveAddress s base offset) (s.getReg rt) with
  | .ok t => .next t
  | .error f => .next (s.raise f)

end Sys2Proof.Machine
end

