-- ==== Sys2Proof/Machine/Dispatch.lean ====
section
/-! DEFINITION. The handlers of the opcode tables (40_step_dispatch.md R124, R126), one arm per instruction. -/

namespace Sys2Proof.Machine

/-- Step 4 of R120 for a decoded instruction, run after the step's fetch and `pc` advance. -/
def exec (i : Instr) (s : State) : Host.Outcome State Fault Refusal :=
  match i with
  | .lui rt imm => Sys2Proof.Machine.execLui rt imm s
  | .ori rt rs imm => Sys2Proof.Machine.execOri rt rs imm s
  | .addiu rt rs imm => Sys2Proof.Machine.execAddiu rt rs imm s
  | .sll rd rt shamt => Sys2Proof.Machine.execSll rd rt shamt s
  | .or rd rs rt => Sys2Proof.Machine.execOr rd rs rt s
  | .sw rt offset base => Sys2Proof.Machine.execSw rt offset base s
  | .j target => Sys2Proof.Machine.execJ target s

end Sys2Proof.Machine
end

