-- ==== Sys2Proof/Machine/Cycle.lean ====
section
/-! DEFINITION. The single-step protocol (40_step_dispatch.md R120): fetch, advance, decode, execute, trace. -/

namespace Sys2Proof.Machine

/-- Steps 4 and 5 of R120 on the executed word: decode, dispatch (R124), execute, append the trace record. A word
that is no instruction raises its fault here, when it is executed (R125; 30_encoding.md R104, R105). -/
def executeWord (word : Word) (s : State) : Host.Outcome State Fault Refusal :=
  match decode s.config word with
  | .ok i =>
    match exec i s with
    | .next t => .next (t.record word i.mnemonic)
    | .fault f => .fault f
    | .refused r => .refused r
  | .error .unknownPrimary => .next (s.raise (.unknownInstruction word))
  | .error .unknownSecondary => .next (s.raise (.unknownSecondaryOpInstruction word))

/-- `run_single_cycle` (R120). A faulted state takes no step (R121; D25, log entry 25). A fetch fault ends the
step with nothing else changed (R128 (a); D2, log entry 2); a fault of the executed word leaves the fetch's
writes standing (R128 (b); D3, log entry 3). -/
def runSingleCycle (s : State) : Host.Outcome State Fault Refusal :=
  match s.fault with
  | some f => .fault f
  | none =>
    match s.fetch with
    | .error f => .next (s.raise f)
    | .ok t => executeWord s.nextInstruction t

/-- The state with `w` waiting to be executed by the very next step, as if the previous step had fetched it
(10_state.md R31). -/
def State.queueWord (s : State) (nbits w : Nat) : State := s.setPending (BitVec.ofNat 32 (w % 2 ^ nbits))

end Sys2Proof.Machine
end

