-- ==== Sys2Proof/Machine/Step.lean ====
section
/-! DEFINITION. The machine's step, and the placing of one instruction for it. -/

namespace Sys2Proof.Machine

/-- One step (40_step_dispatch.md R120). -/
def step (s : State) : Host.Outcome State Fault Refusal := runSingleCycle s

/-- `s` with the instruction whose bits are `w` placed where the next step takes the word it executes: the
pending-fetch slot (10_state.md R31; log entry 30). -/
def State.withFetchWord (s : State) (nbits w : Nat) : State := s.queueWord nbits w

end Sys2Proof.Machine
end

