-- ==== Sys2Proof/Machine/HostView.lean ====
section
/-! DEFINITION. The host's side (70_reset_and_hazards.md R221 to R223): what the debugger sees, what a step
replies, and the free-running driver. Construction is `State.construct?` in Ops.lean. -/

namespace Sys2Proof.Machine

/-- What the host may read between two steps (R222): the register file, `pc` and the trace, not the pending-fetch
slot (10_state.md R32). -/
structure HostView where
  regs : List Word
  pc : Word
  trace : List TraceRecord
deriving DecidableEq, Repr

/-- The debugger's read-only view of a state (R222). -/
def State.observe (s : State) : HostView where
  regs := (List.finRange 32).map s.getReg
  pc := s.pc
  trace := s.trace

/-- The reply of a step that led to `s`: `none` is `ok`, otherwise the fault (R221). -/
def State.reply (s : State) : Option Fault := s.fault

/-- The free-running driver (R223): it steps, at most `n` times (D24, log entry 24), and treats any fault as
fatal. -/
def freeRun : Nat → State → State
  | 0, s => s
  | n + 1, s =>
    match step s with
    | .next t => freeRun n t
    | .fault _ => s
    | .refused _ => s

end Sys2Proof.Machine
end

