-- ==== Sys2Proof/Safety.lean ====
section
/-! DEFINITION. The terms claims are stated in: running states, the invariants, reachable states, frames,
truthful faults, which device claims an address, which registers an instruction reads and writes. -/

namespace Sys2Proof

/-- The registers an instruction reads (10_state.md R25). -/
def Instr.reads : Instr → List RegIdx
  | .lui _ _ => []
  | .ori _ rs _ => [rs]
  | .addiu _ rs _ => [rs]
  | .sll _ rt _ => [rt]
  | .or _ rs rt => [rs, rt]
  | .sw rt _ base => [base, rt]
  | .j _ => []

/-- The register an instruction writes, if any (10_state.md R25). -/
def Instr.dest : Instr → Option RegIdx
  | .lui rt _ => some rt
  | .ori rt _ _ => some rt
  | .addiu rt _ _ => some rt
  | .sll rd _ _ => some rd
  | .or rd _ _ => some rd
  | .sw _ _ _ => none
  | .j _ => none

/-- The instruction holds the operands written in the listing, number for number (30_encoding.md R110, R111; log
entry 23). A jump's index is bits 27:2 of the address written. -/
def Asm.Spells (a : Asm) (i : Instr) : Prop :=
  match a with
  | .lui rt imm => ∃ t v, i = .lui t v ∧ t.val = rt ∧ v.toNat = imm
  | .ori rt rs imm => ∃ t s v, i = .ori t s v ∧ t.val = rt ∧ s.val = rs ∧ v.toNat = imm
  | .addiu rt rs simm => ∃ t s v, i = .addiu t s v ∧ t.val = rt ∧ s.val = rs ∧ v.toInt = simm
  | .sll rd rt shamt => ∃ d t v, i = .sll d t v ∧ d.val = rd ∧ t.val = rt ∧ v.toNat = shamt
  | .or rd rs rt => ∃ d s t, i = .or d s t ∧ d.val = rd ∧ s.val = rs ∧ t.val = rt
  | .sw rt offset base => ∃ t v b, i = .sw t v b ∧ t.val = rt ∧ v.toInt = offset ∧ b.val = base
  | .j addr => ∃ v, i = .j v ∧ v.toNat = addr / 4 % 2 ^ 26
  | .nop => i = .sll 0 0 0

end Sys2Proof

namespace Sys2Proof.Machine

/-- A state a step can be taken from (10_state.md R37, 40_step_dispatch.md R121). -/
abbrev Running (s : State) : Prop := s.fault = none

/-- The machine's invariants: those of 10_state.md R41 (register 0, `pc`, disjoint ranges, the last by
`Config.wellFormed`), and the canonical form of storage inside the ROM range (R36). -/
structure State.Inv (s : State) : Prop where
  zero_is_zero : s.regs[0] = 0
  pc_aligned : s.pc.toNat % 4 = 0
  mem_wf : Memory.wf s.mem = true
  mem_in_rom : Memory.within s.config.rom s.mem = true
  config_wf : s.config.wellFormed = true

/-- Every record of the trace names the instruction its word decodes to (10_state.md R40). -/
def TraceDecodes (s : State) : Prop :=
  ∀ r ∈ s.trace, ∃ i, decode s.config r.word = .ok i ∧ r.mnemonic = i.mnemonic

/-- What a fault says is so when the fetch of a step from `s` raised it (60_exceptions.md R181, R182 (a)): its address
is `pc`, and that address is no multiple of 4, or is one and lies outside the ROM. A fetch raises no other fault. -/
def FetchFaultTruthful (s : State) : Fault → Prop
  | .unalignedAddress a => a = s.pc ∧ a.toNat % 4 ≠ 0
  | .unmappedAddress a => a = s.pc ∧ a.toNat % 4 = 0 ∧ rangeContains s.config.rom a = false
  | .invalidConfigurationWrite _ _ => False
  | .unknownInstruction _ => False
  | .unknownSecondaryOpInstruction _ => False

/-- The word pending in `s` is an SW that stores `v` at `a`. The fetch before it writes no register, so its operands
are read in `s` (43_store.md R160). -/
def PendingStore (s : State) (a v : Word) : Prop :=
  ∃ rt offset base, decode s.config s.nextInstruction = .ok (.sw rt offset base)
    ∧ a = effectiveAddress s base offset ∧ v = s.getReg rt

/-- What a fault says is so when the word pending in `s` raised it (60_exceptions.md R181 to R185): the three bus
faults name a pending SW's address that is misaligned, that no configuration range contains, or that is a
validated word written with another value; the two others name the pending word, which has no entry. -/
def ExecuteFaultTruthful (s : State) : Fault → Prop
  | .unalignedAddress a => (∃ v, PendingStore s a v) ∧ a.toNat % 4 ≠ 0
  | .unmappedAddress a => (∃ v, PendingStore s a v) ∧ a.toNat % 4 = 0
      ∧ rangeContains s.config.memCtrl a = false ∧ rangeContains s.config.ramSize a = false
      ∧ rangeContains s.config.cacheCtrl a = false
  | .invalidConfigurationWrite a v => PendingStore s a v
      ∧ (a.toNat = s.config.memCtrl.start ∧ v ≠ s.config.exp1BaseExpected
        ∨ a.toNat = s.config.memCtrl.start + 4 ∧ v ≠ s.config.exp2BaseExpected)
  | .unknownInstruction w => w = s.nextInstruction ∧ primaryOpcode s.config w = none
  | .unknownSecondaryOpInstruction w => w = s.nextInstruction ∧ primaryOpcode s.config w = some .ext
      ∧ secondaryOpcode s.config w = none

/-- The states of every run of a core constructed with parameters `c` and ROM image `image`
(40_step_dispatch.md R130). -/
inductive Reachable (c : Config) (image : List Byte) : State → Prop where
  | construct {s : State} (h : State.construct? c image = some s) : Reachable c image s
  | next {s t : State} (hs : Reachable c image s) (h : step s = .next t) : Reachable c image t

/-- Every register reads the same. -/
def SameRegs (s t : State) : Prop := ∀ r, t.getReg r = s.getReg r

/-- Everything but the registers and `pc` is the same; of storage, every byte. -/
def SameButRegsAndPc (s t : State) : Prop :=
  t.nextInstruction = s.nextInstruction ∧ t.fault = s.fault ∧ t.trace = s.trace ∧ t.config = s.config
    ∧ ∀ a, t.readByte a = s.readByte a

/-- Register `rd` takes `v` (discarded when `rd` is register 0, 10_state.md R23) and nothing else changes. -/
def WritesOnly (s t : State) (rd : RegIdx) (v : Word) : Prop :=
  (∀ r, t.getReg r = if r = rd ∧ rd ≠ 0 then v else s.getReg r) ∧ t.pc = s.pc ∧ SameButRegsAndPc s t

/-- A store of `v` at `a` that the bus accepts (20_memory.md R57, R60 to R62). -/
def StoreAccepted (c : Config) (a v : Word) : Prop :=
  a.toNat % 4 = 0 ∧
    ((rangeContains c.memCtrl a = true ∧ (a.toNat = c.memCtrl.start → v = c.exp1BaseExpected)
        ∧ (a.toNat = c.memCtrl.start + 4 → v = c.exp2BaseExpected))
      ∨ rangeContains c.ramSize a = true ∨ rangeContains c.cacheCtrl a = true)

/-- A step that raised no fault. -/
def CompletesTo (s t : State) : Prop := step s = .next t ∧ Running t

end Sys2Proof.Machine
end

