-- ==== Sys2Proof/Certificates/Slice0/Obligations.lean ====
section
/-! DEFINITION. The statements for the provers. Each docstring names the rule of spec/ it formalises; where a
clause rests on one of the spec's own decisions or on a choice of the model, the docstring says so and names the
log entry. Every statement quantifies over the parameters of 00_scope.md R6 and R7 (through the state's
`config`) unless it says "default". -/

open Sys2Proof Sys2Proof.Machine

/-! ### Reset and construction -/

/-- The values the registers, `pc`, the pending-fetch slot, the fault field, the trace, the bus and the ROM hold after
reset, in terms of the parameters (10_state.md section 8). The fault field is decision D1, the length of the image
D17, the bus carried in the state the model's choice (log entries 1, 17, 29). -/
def Obligations.ResetLeavesTheNamedValues : Prop :=
  ∀ (c : Config) (image : List Byte) (s : State), State.construct? c image = some s →
    s.getReg 0 = 0 ∧ (∀ r, r ≠ 0 → s.getReg r = c.regSentinel) ∧ s.pc = c.bootVector
      ∧ s.nextInstruction = c.nopWord ∧ s.fault = none ∧ s.trace = [] ∧ s.config = c
      ∧ busMappings s.config = busMappings c
      ∧ ∀ o (h : o < image.length), s.readByte (c.rom.start + o) = image[o]

/-- The state at reset (10_state.md section 8) with the model's default numbers (decisions D5, D6, D7; log entries 5,
6, 7), no fault (decision D1, log entry 1), and its image of zeros (log entry 31). -/
def Obligations.DefaultResetState : Prop :=
  State.reset.pc = 0xBFC00000 ∧ State.reset.nextInstruction = 0x00000000 ∧ State.reset.getReg 0 = 0
    ∧ (∀ r, r ≠ 0 → State.reset.getReg r = 0xDEADBEEF) ∧ State.reset.fault = none ∧ State.reset.trace = []
    ∧ State.reset.config = Config.default ∧ ∀ a, State.reset.readByte a = 0

/-- A core is constructed for an image of exactly `ROM_SIZE` bytes and for no other (70_reset_and_hazards.md
section 2; decision D17, log entry 17); it starts with no fault (decision D1, log entry 1) and with the parameters
it was constructed for (log entry 29). -/
def Obligations.CoreNeedsAFullImage : Prop :=
  ∀ (c : Config) (image : List Byte),
    (image.length = c.rom.size → ∃ s, State.construct? c image = some s ∧ Running s ∧ s.config = c)
    ∧ (image.length ≠ c.rom.size → State.construct? c image = none)

/-- The default parameters meet every constraint on parameters (00_scope.md section 4, marked there as derived by
evaluation; log entries 5 to 10, 32). -/
def Obligations.DefaultParametersAreValid : Prop := Config.default.valid = true

/-! ### Registers -/

/-- 10_state.md R23: a write to register 1 to 31 is seen by the next read and changes no other register; a write
to register 0 is discarded and raises no fault. Last, that no write changes any other field of the state. -/
def Obligations.RegisterWriteThenRead : Prop :=
  ∀ (s : State) (i r : RegIdx) (v : Word),
    (i ≠ 0 → (s.setReg i v).getReg i = v) ∧ (r ≠ i → (s.setReg i v).getReg r = s.getReg r)
      ∧ s.setReg 0 v = s ∧ (s.setReg i v).getReg 0 = 0 ∧ (s.setReg i v).fault = s.fault
      ∧ (s.setReg i v).pc = s.pc ∧ (s.setReg i v).nextInstruction = s.nextInstruction
      ∧ (s.setReg i v).trace = s.trace ∧ (s.setReg i v).mem = s.mem ∧ (s.setReg i v).config = s.config

/-! ### The bus -/

/-- 20_memory.md R58: in every state of a run, loading a word of the boot ROM gives the four bytes of the supplied
image at that offset, least significant first. -/
def Obligations.RomWordsAreLittleEndian : Prop :=
  ∀ (c : Config) (image : List Byte) (s : State), c.wellFormed = true → Reachable c image s →
    ∀ o, o % 4 = 0 → o + 4 ≤ image.length →
      ∃ w, s.load32 (BitVec.ofNat 32 (c.rom.start + o)) = .ok w
        ∧ w.toNat = (image.getD o 0).toNat + (image.getD (o + 1) 0).toNat * 2 ^ 8
            + (image.getD (o + 2) 0).toNat * 2 ^ 16 + (image.getD (o + 3) 0).toNat * 2 ^ 24

/-- An address that is no multiple of 4 faults with `UnalignedAddress`, whatever range it lies in, on loads and stores;
under the invariant the fetch of a step never does (20_memory.md section 2). That the fault carries the address is
decision D15 (log entry 15). -/
def Obligations.MisalignedAccessFaultsFirst : Prop :=
  (∀ (s : State) (a v : Word), a.toNat % 4 ≠ 0 →
    s.load32 a = .error (.unalignedAddress a) ∧ s.store32 a v = .error (.unalignedAddress a))
  ∧ ∀ (s : State) (a : Word), s.Inv → s.load32 s.pc ≠ .error (.unalignedAddress a)

/-- The whole outcome of a load (20_memory.md sections 3, 4 and 9). That configuration registers do not read is
decision D11 (log entry 11). -/
def Obligations.LoadOutcome : Prop :=
  ∀ (s : State) (a : Word), s.config.wellFormed = true →
    s.load32 a =
      if a.toNat % 4 ≠ 0 then .error (.unalignedAddress a)
      else if rangeContains s.config.rom a = true then .ok (Memory.readWord s.mem a.toNat)
      else .error (.unmappedAddress a)

/-- The whole outcome of a store (20_memory.md sections 3, 4 and 9): an accepted store leaves the state as it was.
That the ROM faults, and which memory-control words are validated, are decisions D12 and D10 (log entries 12,
10). -/
def Obligations.StoreOutcome : Prop :=
  ∀ (s : State) (a v : Word), s.config.wellFormed = true →
    (a.toNat % 4 ≠ 0 → s.store32 a v = .error (.unalignedAddress a))
    ∧ (StoreAccepted s.config a v → s.store32 a v = .ok s)
    ∧ (a.toNat % 4 = 0 → rangeContains s.config.memCtrl a = false → rangeContains s.config.ramSize a = false →
        rangeContains s.config.cacheCtrl a = false → s.store32 a v = .error (.unmappedAddress a))
    ∧ (a.toNat = s.config.memCtrl.start → v ≠ s.config.exp1BaseExpected →
        s.store32 a v = .error (.invalidConfigurationWrite a v))
    ∧ (a.toNat = s.config.memCtrl.start + 4 → v ≠ s.config.exp2BaseExpected →
        s.store32 a v = .error (.invalidConfigurationWrite a v))

/-- 20_memory.md R61, R62: the RAM-size and the cache-control registers accept any value, discard it, and no state
changes. -/
def Obligations.RamSizeAndCacheControlAcceptAnyWord : Prop :=
  ∀ (s : State) (a v : Word), s.config.wellFormed = true → a.toNat % 4 = 0 →
    (rangeContains s.config.ramSize a = true ∨ rangeContains s.config.cacheCtrl a = true) →
    s.store32 a v = .ok s

/-- The order of the mapping list cannot be observed (20_memory.md section 1, marked there as derived). -/
def Obligations.MappingOrderIsUnobservable : Prop :=
  ∀ (c : Config) (ms : List Mapping) (a : Word), c.wellFormed = true → ms.Perm (busMappings c) →
    findMapping ms a = findMapping (busMappings c) a

/-! ### Decoding and encoding -/

/-- 30_encoding.md R92 to R100, as arithmetic on the word: every field of every word. -/
def Obligations.FieldsAreBitSlices : Prop :=
  ∀ w : Word,
    (opOf w).toNat = w.toNat / 2 ^ 26 ∧ (fnOf w).toNat = w.toNat % 2 ^ 6
      ∧ (rsOf w).val = w.toNat / 2 ^ 21 % 2 ^ 5 ∧ (rtOf w).val = w.toNat / 2 ^ 16 % 2 ^ 5
      ∧ (rdOf w).val = w.toNat / 2 ^ 11 % 2 ^ 5 ∧ (immOf w).toNat = w.toNat % 2 ^ 16
      ∧ (simmOf w).toNat =
          (if w.toNat / 2 ^ 15 % 2 = 0 then w.toNat % 2 ^ 16 else w.toNat % 2 ^ 16 + 0xFFFF0000)
      ∧ (shamtOf w).toNat = w.toNat / 2 ^ 6 % 2 ^ 5 ∧ (targetOf w).toNat = w.toNat % 2 ^ 26

/-- Decoding the encoding of an instruction gives it back, for every instruction, every operand value and every
well-formed choice of opcode numbers (30_encoding.md sections 1 to 3; unused fields encoded as 0, log
entry 23). -/
def Obligations.DecodeOfEncode : Prop :=
  ∀ (c : Config) (i : Instr), c.wellFormed = true → decode c (encode c i) = .ok i

/-- Encoding what was decoded gives the word back with its unused fields cleared (30_encoding.md sections 1 to 3;
unused fields ignored by decision D14, log entry 14). -/
def Obligations.EncodeOfDecode : Prop :=
  ∀ (c : Config) (w : Word) (i : Instr), c.wellFormed = true → decode c w = .ok i →
    encode c i = w &&& ~~~ unusedMask i.mnemonic

/-- A word decodes to an instruction of a mnemonic exactly when it matches that mnemonic's row under its mask
(30_encoding.md section 3, the complete map, marked there as derived; opcode_table.json). -/
def Obligations.DecodeFollowsMaskAndMatch : Prop :=
  ∀ (c : Config) (w : Word) (m : Mnemonic), c.wellFormed = true →
    ((∃ i, decode c w = .ok i ∧ i.mnemonic = m) ↔ w &&& opcodeMask m = c.opcodeMatch m)

/-- Two words that differ only in a field their instruction does not use decode to the same instruction
(30_encoding.md section 3; for SLL and OR by decision D14, log entry 14). -/
def Obligations.UnusedFieldsAreIgnored : Prop :=
  ∀ (c : Config) (w w' : Word) (i : Instr), c.wellFormed = true → decode c w = .ok i →
    (w ^^^ w') &&& ~~~ unusedMask i.mnemonic = 0 → decode c w' = .ok i

/-- Words of 95_test_vectors.md section 2 under the default opcode numbers (decision D8, log entry 8): one of each
family, and two that are no instruction. -/
def Obligations.ExampleWordsDecode : Prop :=
  decode Config.default 0x3C011234 = .ok (.lui 1 0x1234)
    ∧ decode Config.default 0x342200FF = .ok (.ori 2 1 0x00FF)
    ∧ decode Config.default 0x2422FFFF = .ok (.addiu 2 1 0xFFFF)
    ∧ decode Config.default 0x03E11100 = .ok (.sll 2 1 4)
    ∧ decode Config.default 0x00622025 = .ok (.or 4 3 2)
    ∧ decode Config.default 0xAC60FFFC = .ok (.sw 0 0xFFFC 3)
    ∧ decode Config.default 0x0BF00004 = .ok (.j 0x3F00004)
    ∧ decode Config.default 0xFFFFFFFF = .error .unknownPrimary
    ∧ decode Config.default 0x0000000C = .error .unknownSecondary

/-! ### The step -/

/-- A step of a running state whose fetch succeeds and whose pending word decodes to `i` is `exec i` after the
fetch's two writes, then the trace record (40_step_dispatch.md section 1). What `record` does on a fault is
decision D4 (log entry 4). -/
def Obligations.StepRunsThePendingInstruction : Prop :=
  ∀ (s : State) (w : Word) (i : Instr), Running s → s.load32 s.pc = .ok w →
    decode s.config s.nextInstruction = .ok i →
    step s =
      match exec i { s with nextInstruction := w, pc := s.pc + 4 } with
      | .next t => .next (t.record s.nextInstruction i.mnemonic)
      | .fault f => .fault f
      | .refused r => .refused r

/-- Every running state has a next state, and no step is refused (40_step_dispatch.md sections 1 and 3; that a
raised fault is a next state with its fault field set is decision D1, log entry 1). -/
def Obligations.RunningStatesStep : Prop :=
  ∀ s : State, (Running s → ∃ t, step s = .next t) ∧ ∀ r, step s ≠ .refused r

/-- A faulted state takes no step; the machine answers its fault (40_step_dispatch.md section 1; decision D25, log
entry 25). -/
def Obligations.FaultedStatesDoNotStep : Prop :=
  ∀ (s : State) (f : Fault), s.fault = some f → step s = .fault f

/-- A fault of the fetch comes first, whatever the pending word is, and changes nothing but the fault field
(60_exceptions.md section 3; decision D2, log entry 2). -/
def Obligations.FetchFaultEndsTheStep : Prop :=
  ∀ (s : State) (f : Fault) (pending : Word), Running s → s.load32 s.pc = .error f →
    step { s with nextInstruction := pending } = .next { s with nextInstruction := pending, fault := some f }

/-- A fault of the executed word leaves the fetch's writes standing and nothing else changed (decisions D3 and D4,
log entries 3 and 4; 40_step_dispatch.md section 3). -/
def Obligations.ExecuteFaultKeepsTheFetch : Prop :=
  ∀ (s t : State) (w : Word) (f : Fault), s.load32 s.pc = .ok w → step s = .next t → t.fault = some f →
    t = { s with nextInstruction := w, pc := s.pc + 4, fault := some f }

/-- Executing a word with an unknown primary opcode raises `UnknownInstruction` with the word; the fetch's writes
stand, and no register, no trace record, no byte and no parameter changes (30_encoding.md section 3; what a
faulting step leaves is decisions D3 and D4, log entries 3 and 4). -/
def Obligations.UnknownPrimaryFaults : Prop :=
  ∀ (s : State) (w : Word), Running s → s.load32 s.pc = .ok w →
    primaryOpcode s.config s.nextInstruction = none →
    ∃ t, step s = .next t ∧ t.fault = some (.unknownInstruction s.nextInstruction) ∧ SameRegs s t
      ∧ t.nextInstruction = w ∧ t.pc = s.pc + 4 ∧ t.trace = s.trace ∧ t.config = s.config ∧ ∀ a, t.readByte a = s.readByte a

/-- Executing an extended word with an unknown secondary opcode raises `UnknownSecondaryOpInstruction`; its payload
is the word by decision D15 (log entry 15; 30_encoding.md section 3; what a faulting step leaves is decisions D3
and D4, log entries 3 and 4). -/
def Obligations.UnknownSecondaryFaults : Prop :=
  ∀ (s : State) (w : Word), Running s → s.load32 s.pc = .ok w →
    primaryOpcode s.config s.nextInstruction = some .ext → secondaryOpcode s.config s.nextInstruction = none →
    ∃ t, step s = .next t ∧ t.fault = some (.unknownSecondaryOpInstruction s.nextInstruction) ∧ SameRegs s t
      ∧ t.nextInstruction = w ∧ t.pc = s.pc + 4 ∧ t.trace = s.trace ∧ t.config = s.config ∧ ∀ a, t.readByte a = s.readByte a

/-- A step that completes appends exactly one record, of the executed word and its mnemonic; a step that faults
appends none (40_step_dispatch.md section 3; the latter is decision D4, log entry 4). -/
def Obligations.CompletedStepsAreTraced : Prop :=
  ∀ s t : State, step s = .next t →
    (t.fault = none → ∃ i, decode s.config s.nextInstruction = .ok i
      ∧ t.trace = s.trace ++ [⟨s.nextInstruction, i.mnemonic⟩])
    ∧ (t.fault ≠ none → t.trace = s.trace)

/-- `pc` changes in two ways only: the unconditional `+4`, modulo `2^32`, and J (44_jump.md section on control
transfer; decisions D13 and D18, log entries 13 and 18). -/
def Obligations.PcMovesByFourOrByJump : Prop :=
  ∀ s t : State, CompletesTo s t →
    (∃ target, decode s.config s.nextInstruction = .ok (.j target) ∧ t.pc = jumpTarget s.pc target)
    ∨ ((∀ target, decode s.config s.nextInstruction ≠ .ok (.j target)) ∧ t.pc = s.pc + 4)

/-! ### The instructions' results, completion and frames -/

/-- 41_alu_immediate.md R140: LUI's encoding, and that it always completes with `x[rt] = imm * 65536` and nothing
else changed. -/
def Obligations.LuiLoadsTheUpperHalf : Prop :=
  (∀ (c : Config) (w : Word), c.wellFormed = true → w &&& 0xFC000000 = 0x3C000000 →
    opOf w = 15 ∧ decode c w = .ok (.lui (rtOf w) (immOf w)))
  ∧ ∀ (s : State) (rt : RegIdx) (imm : BitVec 16),
    ∃ t, exec (.lui rt imm) s = .next t ∧ WritesOnly s t rt (BitVec.ofNat 32 (imm.toNat * 65536))

/-- 41_alu_immediate.md R141: ORI's encoding, and that it always completes; bits 31:16 of the result are those of
`x[rs]`, bits 15:0 the or with the immediate. -/
def Obligations.OriOrsTheLowHalf : Prop :=
  (∀ (c : Config) (w : Word), c.wellFormed = true → w &&& 0xFC000000 = 0x34000000 →
    opOf w = 13 ∧ decode c w = .ok (.ori (rtOf w) (rsOf w) (immOf w)))
  ∧ ∀ (s : State) (rt rs : RegIdx) (imm : BitVec 16),
    ∃ t, exec (.ori rt rs imm) s = .next t
      ∧ WritesOnly s t rt
          ((s.getReg rs).extractLsb' 16 16 ++ ((s.getReg rs).extractLsb' 0 16 ||| imm) : BitVec (16 + 16))

/-- 41_alu_immediate.md R142: ADDIU's encoding, and that it always completes, on any operand values, with the
sum of `x[rs]` and the signed immediate modulo `2^32`. -/
def Obligations.AddiuAddsTheSignedImmediate : Prop :=
  (∀ (c : Config) (w : Word), c.wellFormed = true → w &&& 0xFC000000 = 0x24000000 →
    opOf w = 9 ∧ decode c w = .ok (.addiu (rtOf w) (rsOf w) (immOf w)))
  ∧ ∀ (s : State) (rt rs : RegIdx) (imm : BitVec 16),
    ∃ t, exec (.addiu rt rs imm) s = .next t
      ∧ WritesOnly s t rt (BitVec.ofInt 32 ((s.getReg rs).toNat + imm.toInt))

/-- SLL's encoding, and that it always completes with `x[rt] * 2^shamt` modulo `2^32` (42_alu_register.md; that the
`rs` field is ignored is decision D14, the default opcode numbers are decision D8, log entries 14 and 8). -/
def Obligations.SllShiftsLeft : Prop :=
  (∀ (c : Config) (w : Word), c.wellFormed = true → opOf w = c.opExt → fnOf w = c.fnSll →
    decode c w = .ok (.sll (rdOf w) (rtOf w) (shamtOf w)))
  ∧ (∀ w : Word, w &&& 0xFC00003F = 0x00000000 →
    decode Config.default w = .ok (.sll (rdOf w) (rtOf w) (shamtOf w)))
  ∧ ∀ (s : State) (rd rt : RegIdx) (shamt : BitVec 5),
    ∃ t, exec (.sll rd rt shamt) s = .next t
      ∧ WritesOnly s t rd (BitVec.ofNat 32 ((s.getReg rt).toNat * 2 ^ shamt.toNat))

/-- OR's encoding, and that it always completes with the bitwise or of its sources, bit by bit (42_alu_register.md;
that the `shamt` field is ignored is decision D14, the default opcode numbers are decision D8, log entries 14
and 8). -/
def Obligations.OrOrsTwoRegisters : Prop :=
  (∀ (c : Config) (w : Word), c.wellFormed = true → opOf w = c.opExt → fnOf w = c.fnOr →
    decode c w = .ok (.or (rdOf w) (rsOf w) (rtOf w)))
  ∧ (∀ w : Word, w &&& 0xFC00003F = 0x00000025 →
    decode Config.default w = .ok (.or (rdOf w) (rsOf w) (rtOf w)))
  ∧ ∀ (s : State) (rd rs rt : RegIdx),
    ∃ t v, exec (.or rd rs rt) s = .next t ∧ WritesOnly s t rd v
      ∧ ∀ k, v.getLsbD k = ((s.getReg rs).getLsbD k || (s.getReg rt).getLsbD k)

/-- SW completes, and leaves the whole state as it was, where the bus accepts the store; its address is
`x[base] + sext(offset)` modulo `2^32` (43_store.md; decisions D10 and D13, log entries 10 and 13). -/
def Obligations.SwCompletesWhereTheBusAccepts : Prop :=
  ∀ (s : State) (rt : RegIdx) (offset : BitVec 16) (base : RegIdx),
    effectiveAddress s base offset = BitVec.ofInt 32 ((s.getReg base).toNat + offset.toInt)
    ∧ (s.config.wellFormed = true → StoreAccepted s.config (effectiveAddress s base offset) (s.getReg rt) →
        exec (.sw rt offset base) s = .next s)

/-- Where SW traps, and that the fault is then its only effect (43_store.md; decisions D3, D10, D12, D15, log
entries 3, 10, 12, 15). -/
def Obligations.SwTrapsOnABusFault : Prop :=
  ∀ (s : State) (rt : RegIdx) (offset : BitVec 16) (base : RegIdx) (a v : Word), s.config.wellFormed = true →
    a = effectiveAddress s base offset → v = s.getReg rt →
    (a.toNat % 4 ≠ 0 →
      exec (.sw rt offset base) s = .next { s with fault := some (.unalignedAddress a) })
    ∧ (a.toNat % 4 = 0 → rangeContains s.config.memCtrl a = false → rangeContains s.config.ramSize a = false →
        rangeContains s.config.cacheCtrl a = false →
        exec (.sw rt offset base) s = .next { s with fault := some (.unmappedAddress a) })
    ∧ ((a.toNat = s.config.memCtrl.start ∧ v ≠ s.config.exp1BaseExpected
          ∨ a.toNat = s.config.memCtrl.start + 4 ∧ v ≠ s.config.exp2BaseExpected) →
        exec (.sw rt offset base) s = .next { s with fault := some (.invalidConfigurationWrite a v) })

/-- J always completes: bits 31:28 of the new `pc` are those of `pc_now`, the rest is the index times 4; no register
and nothing else changes (44_jump.md). That the region comes from `pc_now` is decision D18; that `pc_now` is
`pc - 4` when the instruction runs is the model's (log entry 18). -/
def Obligations.JumpWritesPc : Prop :=
  (∀ (c : Config) (w : Word), c.wellFormed = true → opOf w = c.opJ → decode c w = .ok (.j (targetOf w)))
  ∧ ∀ (s : State) (target : BitVec 26),
    ∃ t, exec (.j target) s = .next t ∧ SameRegs s t ∧ SameButRegsAndPc s t
      ∧ t.pc.toNat = (s.pc - 4).toNat / 2 ^ 28 * 2 ^ 28 + target.toNat * 4

/-- The frame of every instruction: all registers but its destination, register 0, the pending-fetch slot, the trace,
the parameters and every byte are unchanged; `pc` but for J; the fault field but for SW (10_state.md section 2,
the table marked as derived). SW stores to no byte at all. -/
def Obligations.InstructionFrame : Prop :=
  ∀ (i : Instr) (s t : State), exec i s = .next t →
    (∀ r, i.dest ≠ some r → t.getReg r = s.getReg r) ∧ t.getReg 0 = 0
      ∧ t.nextInstruction = s.nextInstruction ∧ t.trace = s.trace ∧ t.config = s.config
      ∧ (∀ a, t.readByte a = s.readByte a)
      ∧ (i.mnemonic ≠ .j → t.pc = s.pc) ∧ (i.mnemonic ≠ .sw → t.fault = s.fault)

/-- An instruction reads no register but its sources: two states that agree on those, on `pc`, on the fault field and
on the parameters get the same result (10_state.md section 2, the table marked as derived). -/
def Obligations.InstructionsReadOnlyTheirSources : Prop :=
  ∀ (i : Instr) (s s' t t' : State), s.pc = s'.pc → s.config = s'.config → s.fault = s'.fault →
    (∀ r ∈ i.reads, s.getReg r = s'.getReg r) → exec i s = .next t → exec i s' = .next t' →
    t.pc = t'.pc ∧ t.fault = t'.fault ∧ ∀ r, i.dest = some r → t.getReg r = t'.getReg r

/-- Of the instructions only SW raises a fault, and only one of three, about its own address and value
(60_exceptions.md section 1, the table marked as derived). -/
def Obligations.OnlySwRaises : Prop :=
  ∀ (i : Instr) (s t : State), exec i s = .next t → t.fault ≠ s.fault →
    ∃ rt offset base, i = .sw rt offset base
      ∧ (t.fault = some (.unalignedAddress (effectiveAddress s base offset))
        ∨ t.fault = some (.unmappedAddress (effectiveAddress s base offset))
        ∨ t.fault = some (.invalidConfigurationWrite (effectiveAddress s base offset) (s.getReg rt)))

/-- An instruction with destination register 0, or one that writes a register back with its own value, changes
nothing at all (30_encoding.md section 4, marked there as derived; log entry 32). -/
def Obligations.NoOpsChangeNothing : Prop :=
  ∀ (i : Instr) (s : State), i.isNoOp = true → exec i s = .next s

/-! ### What cannot be learned or changed -/

/-- No instruction reads or writes the pending-fetch slot (10_state.md section 4). -/
def Obligations.PendingSlotIsNotTouched : Prop :=
  ∀ (i : Instr) (s t : State) (w : Word), exec i s = .next t →
    exec i { s with nextInstruction := w } = .next { t with nextInstruction := w }

/-- Nothing in the core reads the trace: with any other trace a step does the same and appends the same records
(10_state.md section 9). -/
def Obligations.TraceIsNeverRead : Prop :=
  ∀ (s t : State) (other : List TraceRecord), step s = .next t →
    ∃ added, t.trace = s.trace ++ added
      ∧ step { s with trace := other } = .next { t with trace := other ++ added }

/-- A step learns nothing of the ROM but the word at `pc` (20_memory.md section 6). -/
def Obligations.StepReadsOnlyTheWordAtPc : Prop :=
  ∀ (s t : State) (image : List Host.Cell), step s = .next t →
    State.load32 { s with mem := image } s.pc = s.load32 s.pc →
    step { s with mem := image } = .next { t with mem := image }

/-- No step changes what any address loads as: no store is ever seen by a later fetch (20_memory.md section 8, marked
there as derived). -/
def Obligations.NoStepChangesWhatIsFetched : Prop :=
  ∀ s t : State, step s = .next t → ∀ a, t.load32 a = s.load32 a

/-! ### Invariants -/

/-- The reset state meets the invariant of `StepKeepsTheInvariant` (default parameters, log entries 5 to 10, 31). -/
def Obligations.ResetMeetsTheInvariant : Prop := State.reset.Inv

/-- Every constructed core meets the invariant, whatever its image and its well-formed parameters
(70_reset_and_hazards.md section 1; that storage lies in the ROM range rests on log entries 17 and 29). -/
def Obligations.ConstructionMeetsTheInvariant : Prop :=
  ∀ (c : Config) (image : List Byte) (s : State), c.wellFormed = true → State.construct? c image = some s → s.Inv

/-- Every step keeps the invariant: register 0 holds 0, `pc` is a multiple of 4, storage is canonical and inside the
ROM, the device ranges are disjoint (10_state.md sections 3 and 10; `pc + 4` wraps by decision D13, log
entry 13; storage is carried in the state, log entry 29). -/
def Obligations.StepKeepsTheInvariant : Prop :=
  ∀ s t : State, s.Inv → step s = .next t → t.Inv

/-- 10_state.md R41, over every run of every core: register 0 is 0, `pc` is a multiple of 4, at most one device claims
an address, the scan order is the same in every state and answers the device that claims, and a store that none
claims is a fault. -/
def Obligations.ReachableStatesKeepTheRules : Prop :=
  ∀ (c : Config) (image : List Byte) (s : State), c.wellFormed = true → Reachable c image s →
    s.getReg 0 = 0 ∧ s.regs[0] = 0 ∧ s.pc.toNat % 4 = 0
      ∧ (∀ a, ∀ m ∈ busMappings s.config, ∀ m' ∈ busMappings s.config,
          rangeContains m.range a = true → rangeContains m'.range a = true → m = m')
      ∧ busMappings s.config = busMappings c
      ∧ (∀ a, ∀ m ∈ busMappings s.config, rangeContains m.range a = true →
          findMapping (busMappings s.config) a = some m)
      ∧ ∀ a v, (∀ m ∈ busMappings s.config, rangeContains m.range a = false) →
          ∃ f, s.store32 a v = .error f

/-- Every step keeps the trace decodable: each record's mnemonic is that of the instruction its word decodes to
(10_state.md section 9). -/
def Obligations.StepKeepsTheTraceDecodable : Prop :=
  ∀ s t : State, TraceDecodes s → step s = .next t → TraceDecodes t

/-- The fault a step raises tells the truth about the step (60_exceptions.md section 1; the payloads are decision D15,
log entry 15). Where the load at `pc` fails, the fault is that load's and names `pc`, which is misaligned or outside
the ROM; where it succeeds, the fault is the pending word's: of an SW, its address and value, with the address
misaligned, in none of the three configuration ranges, or a validated word that takes another value; or the word
itself, which has no entry. That configuration registers do not read and that the ROM takes no store are decisions
D11 and D12, the validated words D10 (log entries 10 to 12). -/
def Obligations.RaisedFaultsAreTruthful : Prop :=
  ∀ (s t : State) (f : Fault), s.config.wellFormed = true → step s = .next t → t.fault = some f →
    (∀ g, s.load32 s.pc = .error g → f = g ∧ FetchFaultTruthful s f)
    ∧ ∀ w, s.load32 s.pc = .ok w → ExecuteFaultTruthful s f

/-! ### Sequences of steps -/

/-- The first step after reset executes `NOP_WORD`: it fetches the word at the boot vector, advances `pc`, changes no
register and appends one record (40_step_dispatch.md section 4, marked there as derived; log entry 32). -/
def Obligations.FirstStepExecutesTheNoOp : Prop :=
  ∀ (c : Config) (image : List Byte) (s : State), c.valid = true → State.construct? c image = some s →
    rangeContains c.rom c.bootVector = true →
    ∃ t i, step s = .next t ∧ Running t ∧ SameRegs s t ∧ t.pc = c.bootVector + 4
      ∧ t.nextInstruction = Memory.readWord s.mem c.bootVector.toNat
      ∧ decode c c.nopWord = .ok i ∧ t.trace = [⟨c.nopWord, i.mnemonic⟩]

/-- The delay slot of J (44_jump.md, timing table marked as derived; decision D18, log entry 18): the step that executes
the J leaves `pc` at the target and the delay-slot word pending; the next step executes that word, once, with the
registers as the J left them, and fetches the word at the target. -/
def Obligations.DelaySlotRunsBeforeTheTarget : Prop :=
  ∀ (s : State) (target : BitVec 26) (slot atTarget : Word) (i : Instr), Running s →
    decode s.config s.nextInstruction = .ok (.j target) → s.load32 s.pc = .ok slot →
    s.load32 (jumpTarget s.pc target) = .ok atTarget → decode s.config slot = .ok i →
    ∃ s1, step s = .next s1 ∧ Running s1 ∧ SameRegs s s1 ∧ s1.pc = jumpTarget s.pc target
      ∧ s1.nextInstruction = slot
      ∧ ∃ u s2, exec i { s1 with nextInstruction := atTarget, pc := s1.pc + 4 } = .next u ∧ step s1 = .next s2
        ∧ SameRegs u s2 ∧ s2.fault = u.fault ∧ s2.nextInstruction = atTarget
        ∧ (i.mnemonic ≠ .j → s2.pc = jumpTarget s.pc target + 4)

/-- A J in the delay slot of a J (44_jump.md, marked as derived; decision D18, log entry 18): the second jump's region
bits come from the first target, and the word at the first target is left pending. -/
def Obligations.JumpInADelaySlot : Prop :=
  ∀ (s : State) (target target' : BitVec 26) (slot atTarget : Word), Running s →
    decode s.config s.nextInstruction = .ok (.j target) → s.load32 s.pc = .ok slot →
    s.load32 (jumpTarget s.pc target) = .ok atTarget → decode s.config slot = .ok (.j target') →
    ∃ s1 s2, step s = .next s1 ∧ step s1 = .next s2 ∧ Running s2 ∧ SameRegs s s2
      ∧ s2.pc = jumpTarget (jumpTarget s.pc target) target' ∧ s2.nextInstruction = atTarget

/-- A J to an address that does not load executes without fault; the next step's fetch faults and the delay-slot word
is not executed (40_step_dispatch.md section 4, marked as derived; decision D2, log entry 2). -/
def Obligations.JumpToAnUnloadableTarget : Prop :=
  ∀ (s : State) (target : BitVec 26) (slot : Word) (f : Fault), Running s →
    decode s.config s.nextInstruction = .ok (.j target) → s.load32 s.pc = .ok slot →
    s.load32 (jumpTarget s.pc target) = .error f →
    ∃ s1, step s = .next s1 ∧ Running s1 ∧ SameRegs s s1 ∧ s1.pc = jumpTarget s.pc target
      ∧ s1.nextInstruction = slot ∧ step s1 = .next { s1 with fault := some f }

/-- Sequential flow (40_step_dispatch.md section 4, marked as derived; `pc` wraps by decision D13, log entry 13): after
`n` steps without a fault in which no J was executed, `pc` is `4 n` further, `n` records were appended, and the
pending word is the one at `pc - 4`. -/
def Obligations.StraightLineRun : Prop :=
  ∀ (n : Nat) (s t : State), Host.Core.run Sys2Proof.core n s = .next t → Running t →
    (∀ r ∈ t.trace.drop s.trace.length, r.mnemonic ≠ .j) →
    t.pc = s.pc + BitVec.ofNat 32 (4 * n) ∧ t.trace.length = s.trace.length + n
      ∧ (0 < n → s.load32 (t.pc - 4) = .ok t.nextInstruction)

/-- A step whose `pc` has left the ROM faults with `UnmappedAddress(pc)` and does not execute the pending word: so the
last word of the ROM never runs in sequential flow (70_reset_and_hazards.md section 3, marked as derived; that
configuration registers do not read is decision D11, log entry 11; the state left is decision D2, log entry 2). -/
def Obligations.FetchOutsideTheRomFaults : Prop :=
  ∀ s : State, s.Inv → Running s → rangeContains s.config.rom s.pc = false →
    step s = .next { s with fault := some (.unmappedAddress s.pc) }

/-- The free-running driver stops at the first fault: asked for more steps, it leaves the faulted state as it is
(70_reset_and_hazards.md section 5; decision D24, log entry 24). -/
def Obligations.FreeRunStopsAtAFault : Prop :=
  ∀ (n k : Nat) (s : State), (freeRun n s).fault ≠ none → freeRun (n + k) s = freeRun n s

/-- The assembler keeps operands: the word of a well-formed line of any of the seven forms, or of `nop`, decodes to the
instruction with the operands written; `nop` is the word 0 under the default numbers; a jump reaches the address
written; an `addiu` adds the number written (30_encoding.md section 5; the syntax is decision D23, log entry 23; the
jump's region is decision D18, log entry 18; the default numbers are decision D8, log entry 8). -/
def Obligations.AssembledWordsKeepTheirOperands : Prop :=
  (∀ (c : Config) (a : Asm), c.wellFormed = true → decode c (a.assemble c) = .ok a.toInstr)
  ∧ (∀ (c : Config) (next : Word) (a : Asm), c.wellFormed = true → a.wellFormed next = true →
      ∃ i, decode c (a.assemble c) = .ok i ∧ a.Spells i)
  ∧ Asm.assemble Config.default .nop = 0x00000000
  ∧ (∀ (s : State) (addr : Nat), Asm.wellFormed s.pcNow (.j addr) = true →
      ∃ t, exec (Asm.toInstr (.j addr)) s = .next t ∧ t.pc.toNat = addr)
  ∧ ∀ (s : State) (next : Word) (rt rs : Nat) (simm : Int), Asm.wellFormed next (.addiu rt rs simm) = true →
      rt ≠ 0 → ∃ t, exec (Asm.toInstr (.addiu rt rs simm)) s = .next t
        ∧ t.getReg (Fin.ofNat 32 rt) = BitVec.ofInt 32 ((s.getReg (Fin.ofNat 32 rs)).toNat + simm)
end

