-- ==== Sys2Proof/Laws/State.lean ====
section
/-! SUPPORT. One lemma per field per update of the state, so that no later proof unfolds a record update. -/

namespace Sys2Proof.Machine

@[simp] theorem State.setPc_regs (s : State) (v : Word) : (s.setPc v).regs = s.regs := rfl
@[simp] theorem State.setPc_pc (s : State) (v : Word) : (s.setPc v).pc = v := rfl
@[simp] theorem State.setPc_nextInstruction (s : State) (v : Word) : (s.setPc v).nextInstruction = s.nextInstruction := rfl
@[simp] theorem State.setPc_fault (s : State) (v : Word) : (s.setPc v).fault = s.fault := rfl
@[simp] theorem State.setPc_trace (s : State) (v : Word) : (s.setPc v).trace = s.trace := rfl
@[simp] theorem State.setPc_mem (s : State) (v : Word) : (s.setPc v).mem = s.mem := rfl
@[simp] theorem State.setPc_config (s : State) (v : Word) : (s.setPc v).config = s.config := rfl

@[simp] theorem State.setPending_regs (s : State) (w : Word) : (s.setPending w).regs = s.regs := rfl
@[simp] theorem State.setPending_pc (s : State) (w : Word) : (s.setPending w).pc = s.pc := rfl
@[simp] theorem State.setPending_nextInstruction (s : State) (w : Word) : (s.setPending w).nextInstruction = w := rfl
@[simp] theorem State.setPending_fault (s : State) (w : Word) : (s.setPending w).fault = s.fault := rfl
@[simp] theorem State.setPending_trace (s : State) (w : Word) : (s.setPending w).trace = s.trace := rfl
@[simp] theorem State.setPending_mem (s : State) (w : Word) : (s.setPending w).mem = s.mem := rfl
@[simp] theorem State.setPending_config (s : State) (w : Word) : (s.setPending w).config = s.config := rfl

@[simp] theorem State.raise_regs (s : State) (f : Fault) : (s.raise f).regs = s.regs := rfl
@[simp] theorem State.raise_pc (s : State) (f : Fault) : (s.raise f).pc = s.pc := rfl
@[simp] theorem State.raise_nextInstruction (s : State) (f : Fault) : (s.raise f).nextInstruction = s.nextInstruction := rfl
@[simp] theorem State.raise_fault (s : State) (f : Fault) : (s.raise f).fault = some f := rfl
@[simp] theorem State.raise_trace (s : State) (f : Fault) : (s.raise f).trace = s.trace := rfl
@[simp] theorem State.raise_mem (s : State) (f : Fault) : (s.raise f).mem = s.mem := rfl
@[simp] theorem State.raise_config (s : State) (f : Fault) : (s.raise f).config = s.config := rfl

@[simp] theorem State.setReg_pc (s : State) (i : RegIdx) (v : Word) : (s.setReg i v).pc = s.pc := by
  unfold State.setReg; split <;> rfl
@[simp] theorem State.setReg_nextInstruction (s : State) (i : RegIdx) (v : Word) : (s.setReg i v).nextInstruction = s.nextInstruction := by
  unfold State.setReg; split <;> rfl
@[simp] theorem State.setReg_fault (s : State) (i : RegIdx) (v : Word) : (s.setReg i v).fault = s.fault := by
  unfold State.setReg; split <;> rfl
@[simp] theorem State.setReg_trace (s : State) (i : RegIdx) (v : Word) : (s.setReg i v).trace = s.trace := by
  unfold State.setReg; split <;> rfl
@[simp] theorem State.setReg_mem (s : State) (i : RegIdx) (v : Word) : (s.setReg i v).mem = s.mem := by
  unfold State.setReg; split <;> rfl
@[simp] theorem State.setReg_config (s : State) (i : RegIdx) (v : Word) : (s.setReg i v).config = s.config := by
  unfold State.setReg; split <;> rfl

@[simp] theorem State.record_regs (s : State) (w : Word) (m : Mnemonic) : (s.record w m).regs = s.regs := by
  unfold State.record; split <;> rfl
@[simp] theorem State.record_pc (s : State) (w : Word) (m : Mnemonic) : (s.record w m).pc = s.pc := by
  unfold State.record; split <;> rfl
@[simp] theorem State.record_nextInstruction (s : State) (w : Word) (m : Mnemonic) : (s.record w m).nextInstruction = s.nextInstruction := by
  unfold State.record; split <;> rfl
@[simp] theorem State.record_fault (s : State) (w : Word) (m : Mnemonic) : (s.record w m).fault = s.fault := by
  unfold State.record; split <;> rfl
@[simp] theorem State.record_mem (s : State) (w : Word) (m : Mnemonic) : (s.record w m).mem = s.mem := by
  unfold State.record; split <;> rfl
@[simp] theorem State.record_config (s : State) (w : Word) (m : Mnemonic) : (s.record w m).config = s.config := by
  unfold State.record; split <;> rfl

theorem State.record_trace_running (s : State) (w : Word) (m : Mnemonic) (h : s.fault = none) :
    (s.record w m).trace = s.trace ++ [⟨w, m⟩] := by
  simp [State.record, h]

theorem State.record_of_fault (s : State) (w : Word) (m : Mnemonic) (f : Fault) (h : s.fault = some f) :
    s.record w m = s := by
  simp [State.record, h]

@[simp] theorem State.resetWith_pc (c : Config) (rom : List Host.Cell) :
    (State.resetWith c rom).pc = c.bootVector := rfl
@[simp] theorem State.resetWith_nextInstruction (c : Config) (rom : List Host.Cell) :
    (State.resetWith c rom).nextInstruction = c.nopWord := rfl
@[simp] theorem State.resetWith_fault (c : Config) (rom : List Host.Cell) :
    (State.resetWith c rom).fault = none := rfl
@[simp] theorem State.resetWith_trace (c : Config) (rom : List Host.Cell) :
    (State.resetWith c rom).trace = [] := rfl
@[simp] theorem State.resetWith_mem (c : Config) (rom : List Host.Cell) :
    (State.resetWith c rom).mem = rom := rfl
@[simp] theorem State.resetWith_config (c : Config) (rom : List Host.Cell) :
    (State.resetWith c rom).config = c := rfl

/-! ### Registers through their accessors -/

@[simp] theorem State.getReg_zero (s : State) : s.getReg 0 = 0 := rfl

theorem State.getReg_of_ne (s : State) (i : RegIdx) (h : i ≠ 0) : s.getReg i = s.regs[i] := by
  simp [State.getReg, h]

@[simp] theorem State.setReg_zero (s : State) (v : Word) : s.setReg 0 v = s := rfl

theorem State.getReg_setReg_self (s : State) (i : RegIdx) (v : Word) (h : i ≠ 0) :
    (s.setReg i v).getReg i = v := by
  simp [State.setReg, State.getReg, h]

theorem State.getReg_setReg_of_ne (s : State) (i j : RegIdx) (v : Word) (h : j ≠ i) :
    (s.setReg i v).getReg j = s.getReg j := by
  have hv : i.val ≠ j.val := fun e => h (Fin.ext e.symm)
  by_cases hi : i = 0 <;> simp [State.setReg, State.getReg, hi, hv]

/-- Writing register 1 to 31 leaves the cell of register 0 as it is. -/
theorem State.setReg_regs_zero (s : State) (i : RegIdx) (v : Word) : (s.setReg i v).regs[0] = s.regs[0] := by
  unfold State.setReg
  split
  · rfl
  · rename_i h
    have hv : i.val ≠ 0 := fun e => h (Fin.ext e)
    simp [hv]

/-- Registers read the same in two states with the same register file. -/
theorem State.getReg_congr {s t : State} (h : t.regs = s.regs) (i : RegIdx) : t.getReg i = s.getReg i := by
  simp [State.getReg, h]

@[simp] theorem State.getReg_setPc (s : State) (v : Word) (i : RegIdx) : (s.setPc v).getReg i = s.getReg i := rfl

@[simp] theorem State.getReg_setPending (s : State) (w : Word) (i : RegIdx) :
    (s.setPending w).getReg i = s.getReg i := rfl

@[simp] theorem State.getReg_raise (s : State) (f : Fault) (i : RegIdx) : (s.raise f).getReg i = s.getReg i := rfl

@[simp] theorem State.getReg_record (s : State) (w : Word) (m : Mnemonic) (i : RegIdx) :
    (s.record w m).getReg i = s.getReg i :=
  State.getReg_congr (State.record_regs s w m) i

/-! ### Bytes and loads depend on storage and parameters only -/

theorem State.readByte_congr {s t : State} (h : t.mem = s.mem) (a : Nat) : t.readByte a = s.readByte a := by
  simp [State.readByte, h]

/-- `pc_now` seen by the instruction is the `pc` the step started from. -/
@[simp] theorem State.pcNow_setPc_add (s : State) (v : Word) : (s.setPc (v + 4)).pcNow = v := by
  simp [State.pcNow]

end Sys2Proof.Machine
end

