-- ==== Sys2Proof/Laws/Bus.lean ====
section
/-! SUPPORT. What the bus operations can do: which device claims an address, what a load and a store depend on,
and that an accepted store leaves the state as it was. -/

namespace Sys2Proof.Machine

/-- The conjuncts of `Config.wellFormed`, named once. -/
theorem wellFormed_parts {c : Config} (h : c.wellFormed = true) :
    c.bootVector.toNat % 4 = 0 ∧ c.rom.wellFormed = true ∧ c.memCtrl.wellFormed = true
      ∧ c.ramSize.wellFormed = true ∧ c.cacheCtrl.wellFormed = true ∧ c.rangesDisjoint = true
      ∧ 8 ≤ c.memCtrl.size ∧ c.opcodesDistinct = true := by
  simp only [Config.wellFormed, Bool.and_eq_true, decide_eq_true_eq] at h
  tauto

theorem rangeContains_iff (r : Range) (a : Word) :
    rangeContains r a = true ↔ r.start ≤ a.toNat ∧ a.toNat < r.start + r.size := by
  simp [rangeContains]

/-- An address of one range lies in no range disjoint from it. -/
theorem rangeContains_of_disjoint {r q : Range} (h : r.disjoint q = true) {a : Word}
    (ha : rangeContains r a = true) : rangeContains q a = false := by
  simp only [Range.disjoint, rangeContains, Bool.or_eq_true, Bool.and_eq_true, Bool.and_eq_false_iff,
    decide_eq_true_eq, decide_eq_false_iff_not] at *
  omega

theorem rangeContains_of_disjoint' {r q : Range} (h : r.disjoint q = true) {a : Word}
    (ha : rangeContains q a = true) : rangeContains r a = false := by
  cases hr : rangeContains r a with
  | false => rfl
  | true => rw [rangeContains_of_disjoint h hr] at ha; cases ha

/-- Under disjoint ranges the mapping whose range contains an address is the one the scan finds. -/
theorem findMapping_claims {c : Config} (h : c.wellFormed = true) {m : Mapping} (hm : m ∈ busMappings c)
    {a : Word} (ha : rangeContains m.range a = true) : findMapping (busMappings c) a = some m := by
  have hd := (wellFormed_parts h).2.2.2.2.2.1
  simp only [Config.rangesDisjoint, Bool.and_eq_true] at hd
  obtain ⟨⟨⟨⟨⟨rm, rs⟩, rc⟩, ms⟩, mc⟩, sc⟩ := hd
  simp only [busMappings, List.mem_cons, List.not_mem_nil, or_false] at hm
  obtain rfl | rfl | rfl | rfl := hm
  · simp_all [findMapping, busMappings]
  · have h1 := rangeContains_of_disjoint' rm ha
    simp_all [findMapping, busMappings]
  · have h1 := rangeContains_of_disjoint' rs ha
    have h2 := rangeContains_of_disjoint' ms ha
    simp_all [findMapping, busMappings]
  · have h1 := rangeContains_of_disjoint' rc ha
    have h2 := rangeContains_of_disjoint' mc ha
    have h3 := rangeContains_of_disjoint' sc ha
    simp_all [findMapping, busMappings]

/-- A load depends on storage and the parameters only. -/
theorem State.load32_congr {s t : State} (hm : t.mem = s.mem) (hc : t.config = s.config) (a : Word) :
    t.load32 a = s.load32 a := by
  have hd : ∀ b off d, deviceRead t b off d = deviceRead s b off d := by
    intro b off d; cases d <;> simp [deviceRead, hm, hc]
  simp [State.load32, hc, hd]

/-- Everything a store can do: the state as it was, or one of three faults. -/
theorem State.store32_cases (s : State) (a v : Word) :
    s.store32 a v = .ok s ∨ s.store32 a v = .error (.unalignedAddress a)
      ∨ s.store32 a v = .error (.unmappedAddress a) ∨ s.store32 a v = .error (.invalidConfigurationWrite a v) := by
  unfold State.store32
  split
  · simp
  · split
    · rename_i m _
      cases m.device <;> simp only [deviceWrite] <;> (repeat' split) <;> simp
    · simp

/-- Everything a load can do: a word of the image, or one of two faults. -/
theorem State.load32_cases (s : State) (a : Word) :
    (∃ w, s.load32 a = .ok w) ∨ s.load32 a = .error (.unalignedAddress a)
      ∨ s.load32 a = .error (.unmappedAddress a) := by
  unfold State.load32
  split
  · simp
  · split
    · rename_i m _
      cases m.device <;> simp [deviceRead]
    · simp

end Sys2Proof.Machine
end

