-- ==== Sys2Proof/Laws/Decode.lean ====
section
/-! SUPPORT. Fields of the three layouts read back, what each entry of the two opcode tables says, and words
taken apart into their fields. -/

namespace Sys2Proof

/-! ### Layout I -/

@[simp] theorem opOf_layoutI (op : BitVec 6) (rs rt : BitVec 5) (imm : BitVec 16) :
    opOf (layoutI op rs rt imm) = op := by
  unfold opOf layoutI; ext i hi; simp; grind

@[simp] theorem rsOf_layoutI (op : BitVec 6) (rs rt : BitVec 5) (imm : BitVec 16) :
    rsOf (layoutI op rs rt imm) = rs.toFin := by
  unfold rsOf layoutI; congr 1; ext i hi; simp; grind

@[simp] theorem rtOf_layoutI (op : BitVec 6) (rs rt : BitVec 5) (imm : BitVec 16) :
    rtOf (layoutI op rs rt imm) = rt.toFin := by
  unfold rtOf layoutI; congr 1; ext i hi; simp; grind

@[simp] theorem immOf_layoutI (op : BitVec 6) (rs rt : BitVec 5) (imm : BitVec 16) :
    immOf (layoutI op rs rt imm) = imm := by
  unfold immOf layoutI; ext i hi; simp; grind

/-! ### Layout R -/

@[simp] theorem opOf_layoutR (op : BitVec 6) (rs rt rd sh : BitVec 5) (fn : BitVec 6) :
    opOf (layoutR op rs rt rd sh fn) = op := by
  unfold opOf layoutR; ext i hi; simp; grind

@[simp] theorem rsOf_layoutR (op : BitVec 6) (rs rt rd sh : BitVec 5) (fn : BitVec 6) :
    rsOf (layoutR op rs rt rd sh fn) = rs.toFin := by
  unfold rsOf layoutR; congr 1; ext i hi; simp; grind

@[simp] theorem rtOf_layoutR (op : BitVec 6) (rs rt rd sh : BitVec 5) (fn : BitVec 6) :
    rtOf (layoutR op rs rt rd sh fn) = rt.toFin := by
  unfold rtOf layoutR; congr 1; ext i hi; simp; grind

@[simp] theorem rdOf_layoutR (op : BitVec 6) (rs rt rd sh : BitVec 5) (fn : BitVec 6) :
    rdOf (layoutR op rs rt rd sh fn) = rd.toFin := by
  unfold rdOf layoutR; congr 1; ext i hi; simp; grind

@[simp] theorem shamtOf_layoutR (op : BitVec 6) (rs rt rd sh : BitVec 5) (fn : BitVec 6) :
    shamtOf (layoutR op rs rt rd sh fn) = sh := by
  unfold shamtOf layoutR; ext i hi; simp; grind

@[simp] theorem fnOf_layoutR (op : BitVec 6) (rs rt rd sh : BitVec 5) (fn : BitVec 6) :
    fnOf (layoutR op rs rt rd sh fn) = fn := by
  unfold fnOf layoutR; ext i hi; simp; grind

/-! ### Layout J -/

@[simp] theorem opOf_layoutJ (op : BitVec 6) (target : BitVec 26) : opOf (layoutJ op target) = op := by
  unfold opOf layoutJ; ext i hi; simp; grind

@[simp] theorem targetOf_layoutJ (op : BitVec 6) (target : BitVec 26) :
    targetOf (layoutJ op target) = target := by
  unfold targetOf layoutJ; ext i hi; simp; grind

@[simp] theorem regBits_toFin (r : RegIdx) : (regBits r).toFin = r := by
  apply Fin.ext; simp [regBits]

@[simp] theorem regBits_of_toFin (b : BitVec 5) : regBits b.toFin = b := by
  apply BitVec.eq_of_toNat_eq; simp [regBits]

/-! ### A word is the layout of its fields -/

theorem layoutI_fields (w : Word) : layoutI (opOf w) (regBits (rsOf w)) (regBits (rtOf w)) (immOf w) = w := by
  simp only [rsOf, rtOf, regBits_of_toFin]
  unfold layoutI opOf immOf; ext i hi; simp; grind

theorem layoutR_fields (w : Word) :
    layoutR (opOf w) (regBits (rsOf w)) (regBits (rtOf w)) (regBits (rdOf w)) (shamtOf w) (fnOf w) = w := by
  simp only [rsOf, rtOf, rdOf, regBits_of_toFin]
  unfold layoutR opOf shamtOf fnOf; ext i hi; simp; grind

theorem layoutJ_fields (w : Word) : layoutJ (opOf w) (targetOf w) = w := by
  unfold layoutJ opOf targetOf; ext i hi; simp; grind

/-! ### Masking a layout masks its fields -/

theorem layoutI_and (op op' : BitVec 6) (rs rs' rt rt' : BitVec 5) (imm imm' : BitVec 16) :
    layoutI op rs rt imm &&& layoutI op' rs' rt' imm'
      = layoutI (op &&& op') (rs &&& rs') (rt &&& rt') (imm &&& imm') :=
  BitVec.and_append.trans (congrArg (· ++ (imm &&& imm')) (BitVec.and_append.trans
    (congrArg (· ++ (rt &&& rt')) BitVec.and_append)))

theorem layoutR_and (op op' : BitVec 6) (rs rs' rt rt' rd rd' sh sh' : BitVec 5) (fn fn' : BitVec 6) :
    layoutR op rs rt rd sh fn &&& layoutR op' rs' rt' rd' sh' fn'
      = layoutR (op &&& op') (rs &&& rs') (rt &&& rt') (rd &&& rd') (sh &&& sh') (fn &&& fn') :=
  BitVec.and_append.trans (congrArg (· ++ (fn &&& fn')) (BitVec.and_append.trans
    (congrArg (· ++ (sh &&& sh')) (BitVec.and_append.trans (congrArg (· ++ (rd &&& rd'))
      (BitVec.and_append.trans (congrArg (· ++ (rt &&& rt')) BitVec.and_append)))))))

theorem layoutJ_and (op op' : BitVec 6) (t t' : BitVec 26) :
    layoutJ op t &&& layoutJ op' t' = layoutJ (op &&& op') (t &&& t') :=
  BitVec.and_append

theorem and_literal_zero {n : Nat} (b : BitVec n) : b &&& 0 = 0 := BitVec.and_zero

theorem layoutI_masked (op : BitVec 6) (rs rt : BitVec 5) (imm : BitVec 16) :
    layoutI op rs rt imm &&& 0xFC000000 = layoutI op 0 0 0 := by
  have e : (0xFC000000 : Word) = layoutI (BitVec.allOnes 6) 0 0 0 := by decide
  rw [e, layoutI_and]; simp only [BitVec.and_allOnes, and_literal_zero]

theorem layoutR_masked (op : BitVec 6) (rs rt rd sh : BitVec 5) (fn : BitVec 6) :
    layoutR op rs rt rd sh fn &&& 0xFC00003F = layoutR op 0 0 0 0 fn := by
  have e : (0xFC00003F : Word) = layoutR (BitVec.allOnes 6) 0 0 0 0 (BitVec.allOnes 6) := by decide
  rw [e, layoutR_and]; simp only [BitVec.and_allOnes, and_literal_zero]

theorem layoutJ_masked (op : BitVec 6) (target : BitVec 26) :
    layoutJ op target &&& 0xFC000000 = layoutJ op 0 := by
  have e : (0xFC000000 : Word) = layoutJ (BitVec.allOnes 6) 0 := by decide
  rw [e, layoutJ_and]; simp only [BitVec.and_allOnes, and_literal_zero]

theorem layoutI_rs_zero (op : BitVec 6) (rt : BitVec 5) (imm : BitVec 16) :
    layoutI op 0 rt imm &&& 0x03E00000 = 0 := by
  have e : (0x03E00000 : Word) = layoutI 0 (BitVec.allOnes 5) 0 0 := by decide
  rw [e, layoutI_and]; simp only [BitVec.and_allOnes, and_literal_zero]
  decide

theorem layoutR_rs_zero (op : BitVec 6) (rt rd sh : BitVec 5) (fn : BitVec 6) :
    layoutR op 0 rt rd sh fn &&& 0x03E00000 = 0 := by
  have e : (0x03E00000 : Word) = layoutR 0 (BitVec.allOnes 5) 0 0 0 0 := by decide
  rw [e, layoutR_and]; simp only [BitVec.and_allOnes, and_literal_zero]
  decide

theorem layoutR_shamt_zero (op : BitVec 6) (rs rt rd : BitVec 5) (fn : BitVec 6) :
    layoutR op rs rt rd 0 fn &&& 0x000007C0 = 0 := by
  have e : (0x000007C0 : Word) = layoutR 0 0 0 0 (BitVec.allOnes 5) 0 := by decide
  rw [e, layoutR_and]; simp only [BitVec.and_allOnes, and_literal_zero]
  decide

/-! ### The opcode tables -/

/-- The opcode parameters are different from each other and from the three fixed values. -/
theorem opcodes_distinct {c : Config} (h : c.wellFormed = true) :
    c.opExt ≠ c.opJ ∧ c.opExt ≠ opAddiu ∧ c.opExt ≠ opOri ∧ c.opExt ≠ opLui ∧ c.opExt ≠ c.opSw
      ∧ c.opJ ≠ opAddiu ∧ c.opJ ≠ opOri ∧ c.opJ ≠ opLui ∧ c.opJ ≠ c.opSw
      ∧ c.opSw ≠ opAddiu ∧ c.opSw ≠ opOri ∧ c.opSw ≠ opLui ∧ c.fnSll ≠ c.fnOr := by
  have hd := (Machine.wellFormed_parts h).2.2.2.2.2.2.2
  simp only [Config.opcodesDistinct, Bool.and_eq_true, decide_eq_true_eq, List.nodup_cons, List.mem_cons,
    List.not_mem_nil, or_false, not_or] at hd
  obtain ⟨⟨⟨h1, h2, h3, h4, h5⟩, ⟨h6, h7, h8, h9⟩, ⟨-, -, h10⟩, ⟨-, h11⟩, h12, -, -⟩, h13, -⟩ := hd
  exact ⟨h1, h2, h3, h4, h5, h6, h7, h8, h9, fun e => h10 e.symm, fun e => h11 e.symm, fun e => h12 e.symm, h13⟩

theorem lookup_cons_ite {α β : Type} [DecidableEq α] (k a : α) (b : β) (l : List (α × β)) :
    List.lookup k ((a, b) :: l) = if k = a then some b else List.lookup k l := by
  by_cases h : k = a
  · simp [List.lookup, h]
  · have hb : (k == a) = false := by simpa using h
    simp [List.lookup, h, hb]

theorem primaryOpcode_ifs (c : Config) (w : Word) :
    primaryOpcode c w =
      if opOf w = c.opExt then some .ext else if opOf w = c.opJ then some .j
      else if opOf w = opAddiu then some .addiu else if opOf w = opOri then some .ori
      else if opOf w = opLui then some .lui else if opOf w = c.opSw then some .sw else none := by
  simp only [primaryOpcode, Config.primaryTable, lookup_cons_ite, List.lookup_nil]

theorem secondaryOpcode_ifs (c : Config) (w : Word) :
    secondaryOpcode c w = if fnOf w = c.fnSll then some .sll else if fnOf w = c.fnOr then some .or else none := by
  simp only [secondaryOpcode, Config.secondaryTable, lookup_cons_ite, List.lookup_nil]

/-- The primary class of a word is decided by its opcode. -/
theorem primaryOpcode_eq {c : Config} (h : c.wellFormed = true) (w : Word) :
    (primaryOpcode c w = some .ext ↔ opOf w = c.opExt) ∧ (primaryOpcode c w = some .j ↔ opOf w = c.opJ)
      ∧ (primaryOpcode c w = some .addiu ↔ opOf w = opAddiu) ∧ (primaryOpcode c w = some .ori ↔ opOf w = opOri)
      ∧ (primaryOpcode c w = some .lui ↔ opOf w = opLui) ∧ (primaryOpcode c w = some .sw ↔ opOf w = c.opSw) := by
  obtain ⟨h1, h2, h3, h4, h5, h6, h7, h8, h9, h10, h11, h12, -⟩ := opcodes_distinct h
  have h13 : opAddiu ≠ opOri := by decide
  have h14 : opAddiu ≠ opLui := by decide
  have h15 : opOri ≠ opLui := by decide
  rw [primaryOpcode_ifs]
  by_cases e1 : opOf w = c.opExt
  · simp [e1, h1, h2, h3, h4, h5]
  by_cases e2 : opOf w = c.opJ
  · simp [e2, h1.symm, h6, h7, h8, h9]
  by_cases e3 : opOf w = opAddiu
  · simp [e3, h2.symm, h6.symm, h13, h14, h10.symm]
  by_cases e4 : opOf w = opOri
  · simp [e4, h3.symm, h7.symm, h13.symm, h15, h11.symm]
  by_cases e5 : opOf w = opLui
  · simp [e5, h4.symm, h8.symm, h14.symm, h15.symm, h12.symm]
  by_cases e6 : opOf w = c.opSw
  · simp [e6, h5.symm, h9.symm, h10, h11, h12]
  · simp [e1, e2, e3, e4, e5, e6]

/-- The secondary class of a word is decided by its secondary opcode. -/
theorem secondaryOpcode_eq {c : Config} (h : c.wellFormed = true) (w : Word) :
    (secondaryOpcode c w = some .sll ↔ fnOf w = c.fnSll) ∧ (secondaryOpcode c w = some .or ↔ fnOf w = c.fnOr) := by
  have hd := (opcodes_distinct h).2.2.2.2.2.2.2.2.2.2.2.2
  rw [secondaryOpcode_ifs]
  by_cases e1 : fnOf w = c.fnSll
  · simp [e1, hd]
  by_cases e2 : fnOf w = c.fnOr
  · simp [e2, hd.symm]
  · simp [e1, e2]

/-- Everything the decoder can answer, by the opcode classes of the word. -/
theorem decode_cases (c : Config) (w : Word) :
    (primaryOpcode c w = some .lui ∧ decode c w = .ok (.lui (rtOf w) (immOf w)))
      ∨ (primaryOpcode c w = some .ori ∧ decode c w = .ok (.ori (rtOf w) (rsOf w) (immOf w)))
      ∨ (primaryOpcode c w = some .addiu ∧ decode c w = .ok (.addiu (rtOf w) (rsOf w) (immOf w)))
      ∨ (primaryOpcode c w = some .sw ∧ decode c w = .ok (.sw (rtOf w) (immOf w) (rsOf w)))
      ∨ (primaryOpcode c w = some .j ∧ decode c w = .ok (.j (targetOf w)))
      ∨ (primaryOpcode c w = some .ext ∧ secondaryOpcode c w = some .sll
          ∧ decode c w = .ok (.sll (rdOf w) (rtOf w) (shamtOf w)))
      ∨ (primaryOpcode c w = some .ext ∧ secondaryOpcode c w = some .or
          ∧ decode c w = .ok (.or (rdOf w) (rsOf w) (rtOf w)))
      ∨ (primaryOpcode c w = some .ext ∧ secondaryOpcode c w = none ∧ decode c w = .error .unknownSecondary)
      ∨ (primaryOpcode c w = none ∧ decode c w = .error .unknownPrimary) := by
  unfold decode
  rcases primaryOpcode c w with _ | p
  · simp
  · cases p
    case ext => rcases secondaryOpcode c w with _ | q <;> [skip; cases q] <;> simp
    all_goals simp

/-! ### Bytes -/

/-- When the decoder answers that the primary opcode is unknown (R104). -/
theorem decode_unknownPrimary_iff (c : Config) (w : Word) :
    decode c w = .error .unknownPrimary ↔ primaryOpcode c w = none := by
  rcases decode_cases c w with h | h | h | h | h | h | h | h | h <;> simp [h]

/-- When the decoder answers that the secondary opcode is unknown (R105). -/
theorem decode_unknownSecondary_iff (c : Config) (w : Word) :
    decode c w = .error .unknownSecondary ↔ primaryOpcode c w = some .ext ∧ secondaryOpcode c w = none := by
  rcases decode_cases c w with h | h | h | h | h | h | h | h | h <;> simp [h]

/-- The bytes of a word, put together again, are the word (R90; 20_memory.md R58). -/
theorem wordOfBytes_of_word (w : Word) :
    wordOfBytes (w.extractLsb' 0 8) (w.extractLsb' 8 8) (w.extractLsb' 16 8) (w.extractLsb' 24 8) = w := by
  unfold wordOfBytes; ext i hi; simp; grind

/-- Decoding the bytes of a word is decoding the word. -/
theorem decodeBytes_of_word (c : Config) (w : Word) (rest : List Byte) :
    decodeBytes c (bytesOfWord w ++ rest) =
      match decode c w with
      | .ok i => .ok (i, rest)
      | .error e => .error (.notAnInstruction e) := by
  cases h : decode c w <;>
    simp only [bytesOfWord, List.cons_append, List.nil_append, decodeBytes, wordOfBytes_of_word, h]

end Sys2Proof
end

