-- ==== Sys2Proof/Laws/Exec.lean ====
section
/-! SUPPORT. What `exec` and `step` can do, said once: every invariant follows from these inversion lemmas. -/

namespace Sys2Proof.Machine

/-- Everything SW can do: nothing, or one of three faults raised (43_store.md R160). -/
theorem execSw_cases (rt : RegIdx) (offset : BitVec 16) (base : RegIdx) (s : State) :
    execSw rt offset base s = .next s
      ∨ ∃ f, execSw rt offset base s = .next (s.raise f)
          ∧ s.store32 (effectiveAddress s base offset) (s.getReg rt) = .error f
          ∧ (f = .unalignedAddress (effectiveAddress s base offset)
              ∨ f = .unmappedAddress (effectiveAddress s base offset)
              ∨ f = .invalidConfigurationWrite (effectiveAddress s base offset) (s.getReg rt)) := by
  unfold execSw
  rcases s.store32_cases (effectiveAddress s base offset) (s.getReg rt) with h | h | h | h <;> rw [h] <;> simp

/-- Everything an instruction can do: write one register, raise a bus fault of SW, change nothing, or write
`pc`. -/
theorem exec_cases {i : Instr} {s t : State} (h : exec i s = .next t) :
    (∃ rd v, t = s.setReg rd v ∧ i.mnemonic ≠ .sw ∧ i.mnemonic ≠ .j)
      ∨ (∃ rt offset base, i = .sw rt offset base ∧ t = s)
      ∨ (∃ rt offset base f, i = .sw rt offset base ∧ t = s.raise f
          ∧ s.store32 (effectiveAddress s base offset) (s.getReg rt) = .error f)
      ∨ (∃ target, i = .j target ∧ t = s.setPc (jumpTarget s.pcNow target)) := by
  cases i with
  | lui rt imm => cases h; exact .inl ⟨_, _, rfl, by simp [Instr.mnemonic]⟩
  | ori rt rs imm => cases h; exact .inl ⟨_, _, rfl, by simp [Instr.mnemonic]⟩
  | addiu rt rs imm => cases h; exact .inl ⟨_, _, rfl, by simp [Instr.mnemonic]⟩
  | sll rd rt shamt => cases h; exact .inl ⟨_, _, rfl, by simp [Instr.mnemonic]⟩
  | or rd rs rt => cases h; exact .inl ⟨_, _, rfl, by simp [Instr.mnemonic]⟩
  | sw rt offset base =>
    have h' : execSw rt offset base s = .next t := h
    obtain e | ⟨f, e, hf, -⟩ := execSw_cases rt offset base s
    · rw [e] at h'; cases h'; exact .inr (.inl ⟨rt, offset, base, rfl, rfl⟩)
    · rw [e] at h'; cases h'; exact .inr (.inr (.inl ⟨rt, offset, base, f, rfl, rfl, hf⟩))
  | j target => cases h; exact .inr (.inr (.inr ⟨target, rfl, rfl⟩))

/-- An instruction always answers a next state. -/
theorem exec_answers (i : Instr) (s : State) : ∃ t, exec i s = .next t := by
  cases i with
  | sw rt offset base =>
    obtain e | ⟨f, e, -⟩ := execSw_cases rt offset base s
    · exact ⟨s, e⟩
    · exact ⟨_, e⟩
  | _ => exact ⟨_, rfl⟩

/-- No instruction writes the pending-fetch slot, the trace, storage or the parameters. -/
theorem exec_keeps {i : Instr} {s t : State} (h : exec i s = .next t) :
    t.nextInstruction = s.nextInstruction ∧ t.trace = s.trace ∧ t.mem = s.mem ∧ t.config = s.config := by
  obtain ⟨rd, v, rfl, -⟩ | ⟨_, _, _, -, rfl⟩ | ⟨_, _, _, f, -, rfl, -⟩ | ⟨tgt, -, rfl⟩ := exec_cases h <;> simp

theorem State.fetch_ok {s : State} {w : Word} (h : s.load32 s.pc = .ok w) : s.fetch = .ok (s.fetched w) := by
  simp [State.fetch, h]

theorem State.fetch_error {s : State} {f : Fault} (h : s.load32 s.pc = .error f) : s.fetch = .error f := by
  simp [State.fetch, h]

theorem step_of_fault {s : State} {f : Fault} (h : s.fault = some f) : step s = .fault f := by
  simp [step, runSingleCycle, h]

theorem step_of_fetch_fault {s : State} {f : Fault} (hr : s.fault = none) (h : s.load32 s.pc = .error f) :
    step s = .next (s.raise f) := by
  simp [step, runSingleCycle, hr, State.fetch_error h]

theorem step_of_fetch {s : State} {w : Word} (hr : s.fault = none) (h : s.load32 s.pc = .ok w) :
    step s = executeWord s.nextInstruction (s.fetched w) := by
  simp [step, runSingleCycle, hr, State.fetch_ok h]

/-- Everything the execution of a word can do. -/
theorem executeWord_cases {word : Word} {s t : State} (h : executeWord word s = .next t) :
    (∃ i u, decode s.config word = .ok i ∧ exec i s = .next u ∧ t = u.record word i.mnemonic)
      ∨ (decode s.config word = .error .unknownPrimary ∧ t = s.raise (.unknownInstruction word))
      ∨ (decode s.config word = .error .unknownSecondary
          ∧ t = s.raise (.unknownSecondaryOpInstruction word)) := by
  unfold executeWord at h
  split at h
  · rename_i i hd
    obtain ⟨u, hu⟩ := exec_answers i s
    rw [hu] at h
    cases h
    exact .inl ⟨i, u, hd, hu, rfl⟩
  · rename_i hd; cases h; exact .inr (.inl ⟨hd, rfl⟩)
  · rename_i hd; cases h; exact .inr (.inr ⟨hd, rfl⟩)

/-- Everything a step can do: only a running state has one; its fetch faults, or the pending word is executed
after the fetch. -/
theorem step_cases {s t : State} (h : step s = .next t) :
    s.fault = none ∧
      ((∃ f, s.load32 s.pc = .error f ∧ t = s.raise f)
        ∨ ∃ w, s.load32 s.pc = .ok w ∧ executeWord s.nextInstruction (s.fetched w) = .next t) := by
  cases hf : s.fault with
  | some f => rw [step_of_fault hf] at h; cases h
  | none =>
    refine ⟨rfl, ?_⟩
    cases hl : s.load32 s.pc with
    | error f => rw [step_of_fetch_fault hf hl] at h; cases h; exact .inl ⟨f, rfl, rfl⟩
    | ok w => rw [step_of_fetch hf hl] at h; exact .inr ⟨w, rfl, h⟩

/-- No step writes storage or the parameters (10_state.md R38). -/
theorem step_keeps_construction {s t : State} (h : step s = .next t) : t.mem = s.mem ∧ t.config = s.config := by
  obtain ⟨-, ⟨f, -, rfl⟩ | ⟨w, -, he⟩⟩ := step_cases h
  · exact ⟨rfl, rfl⟩
  · obtain ⟨i, u, -, hu, rfl⟩ | ⟨-, rfl⟩ | ⟨-, rfl⟩ := executeWord_cases he
    · obtain ⟨-, -, hm, hc⟩ := exec_keeps hu
      exact ⟨by rw [State.record_mem, hm]; rfl, by rw [State.record_config, hc]; rfl⟩
    · exact ⟨rfl, rfl⟩
    · exact ⟨rfl, rfl⟩

end Sys2Proof.Machine
end

