-- ==== Sys2Proof/Laws/Run.lean ====
section
/-! SUPPORT. A run of the host's `Core.run`, one step at a time. -/

namespace Sys2Proof.Machine

theorem run_succ_next (n : Nat) {s u : State} (h : step s = .next u) :
    Host.Core.run Sys2Proof.core (n + 1) s = Host.Core.run Sys2Proof.core n u := by
  have h' : Sys2Proof.core.step s = .next u := h
  exact (Host.Core.run.eq_2 Sys2Proof.core s n).trans (by rw [h'])

theorem run_succ_fault (n : Nat) {s : State} {f : Fault} (h : step s = .fault f) :
    Host.Core.run Sys2Proof.core (n + 1) s = .fault f := by
  have h' : Sys2Proof.core.step s = .fault f := h
  exact (Host.Core.run.eq_2 Sys2Proof.core s n).trans (by rw [h'])

/-- A run of `n + 1` steps that answers a state took a first step and ran on from there. -/
theorem run_succ_cases {n : Nat} {s t : State} (h : Host.Core.run Sys2Proof.core (n + 1) s = .next t) :
    ∃ u, step s = .next u ∧ Host.Core.run Sys2Proof.core n u = .next t := by
  cases hs : step s with
  | next u => exact ⟨u, rfl, (run_succ_next n hs).symm.trans h⟩
  | fault f => rw [run_succ_fault n hs] at h; cases h
  | refused r =>
    have h' : Sys2Proof.core.step s = .refused r := hs
    have e : Host.Core.run Sys2Proof.core (n + 1) s = .refused r :=
      (Host.Core.run.eq_2 Sys2Proof.core s n).trans (by rw [h'])
    rw [e] at h
    cases h

end Sys2Proof.Machine
end

