-- ==== Sys2Proof/Laws/Host.lean ====
section
/-! SUPPORT. What the host's view depends on, and the free-running driver one step at a time. -/

namespace Sys2Proof.Machine

/-- The host does not see the pending-fetch slot (10_state.md R32). -/
theorem State.observe_setPending (s : State) (w : Word) : (s.setPending w).observe = s.observe := rfl

theorem freeRun_of_fault (n : Nat) {s : State} {f : Fault} (h : s.fault = some f) : freeRun n s = s := by
  cases n with
  | zero => rfl
  | succ n => rw [freeRun, step_of_fault h]

theorem freeRun_succ (n : Nat) {s t : State} (h : step s = .next t) : freeRun (n + 1) s = freeRun n t := by
  rw [freeRun, h]

end Sys2Proof.Machine
end

