-- ==== Sys2Proof/Laws/Memory.lean ====
section
/-! SUPPORT. The laws of storage: a read after a write, and that every operation keeps the canonical form. -/

namespace Sys2Proof.Machine

theorem Memory.risesFrom_mono {lo lo' : Nat} (h : lo ≤ lo') {m : List Host.Cell}
    (hm : Memory.risesFrom lo' m = true) : Memory.risesFrom lo m = true := by
  cases m with
  | nil => rfl
  | cons cell rest =>
    simp only [Memory.risesFrom, Bool.and_eq_true, decide_eq_true_eq] at hm ⊢
    exact ⟨⟨h.trans hm.1.1, hm.1.2⟩, hm.2⟩

/-- Below its first possible address a canonical list has no entry. -/
theorem Memory.readByte_below {lo : Nat} {m : List Host.Cell} (hm : Memory.risesFrom lo m = true) {a : Nat}
    (h : a < lo) : Memory.readByte m a = Memory.unlisted := by
  induction m generalizing lo with
  | nil => rfl
  | cons cell rest ih =>
    simp only [Memory.risesFrom, Bool.and_eq_true, decide_eq_true_eq] at hm
    have hne : a ≠ cell.1 := by omega
    simp only [Memory.readByte, hne, if_false]
    exact ih hm.2 (by omega)

theorem Memory.risesFrom_writeByte {lo : Nat} {m : List Host.Cell} (hm : Memory.risesFrom lo m = true) {a : Nat}
    (h : lo ≤ a) (v : Byte) : Memory.risesFrom lo (Memory.writeByte m a v) = true := by
  induction m generalizing lo with
  | nil =>
    unfold Memory.writeByte
    split <;> simp_all [Memory.risesFrom]
  | cons cell rest ih =>
    simp only [Memory.risesFrom, Bool.and_eq_true, decide_eq_true_eq] at hm
    unfold Memory.writeByte
    split
    · split
      · simp [Memory.risesFrom, hm]
      · simp only [Memory.risesFrom, Bool.and_eq_true, decide_eq_true_eq]
        exact ⟨⟨h, by assumption⟩, ⟨by omega, hm.1.2⟩, hm.2⟩
    · split
      · split
        · exact Memory.risesFrom_mono (by omega) hm.2
        · subst a
          simp only [Memory.risesFrom, Bool.and_eq_true, decide_eq_true_eq]
          exact ⟨⟨h, by assumption⟩, hm.2⟩
      · simp only [Memory.risesFrom, Bool.and_eq_true, decide_eq_true_eq]
        exact ⟨hm.1, ih hm.2 (by omega)⟩

/-- Writing a byte keeps the canonical form. -/
theorem Memory.wf_writeByte {m : List Host.Cell} (hm : Memory.wf m = true) (a : Nat) (v : Byte) :
    Memory.wf (Memory.writeByte m a v) = true :=
  Memory.risesFrom_writeByte hm (Nat.zero_le a) v

theorem Memory.readByte_writeByte_rises {lo : Nat} {m : List Host.Cell} (hm : Memory.risesFrom lo m = true)
    (a b : Nat) (v : Byte) :
    Memory.readByte (Memory.writeByte m a v) b = if b = a then v else Memory.readByte m b := by
  induction m generalizing lo with
  | nil =>
    by_cases hv : v = Memory.unlisted <;> by_cases hb : b = a <;> simp [Memory.writeByte, Memory.readByte, hv, hb]
  | cons cell rest ih =>
    obtain ⟨c, x⟩ := cell
    simp only [Memory.risesFrom, Bool.and_eq_true, decide_eq_true_eq] at hm
    have below : ∀ d, d ≤ c → Memory.readByte rest d = Memory.unlisted := fun d hd =>
      Memory.readByte_below hm.2 (by omega)
    rcases Nat.lt_trichotomy a c with h | h | h
    · by_cases hv : v = Memory.unlisted <;> by_cases hb : b = a
      · have hbc : b ≠ c := by omega
        have hac : a ≠ c := by omega
        simp [Memory.writeByte, Memory.readByte, h, hv, hb, hac, below a (by omega)]
      · simp [Memory.writeByte, h, hv, hb]
      · simp [Memory.writeByte, Memory.readByte, h, hv, hb]
      · simp [Memory.writeByte, Memory.readByte, h, hv, hb]
    · subst h
      by_cases hv : v = Memory.unlisted <;> by_cases hb : b = a
      · simp [Memory.writeByte, hv, hb, below a (le_refl a)]
      · simp [Memory.writeByte, Memory.readByte, hv, hb]
      · simp [Memory.writeByte, Memory.readByte, hv, hb]
      · simp [Memory.writeByte, Memory.readByte, hv, hb]
    · have h1 : ¬ a < c := by omega
      have h2 : a ≠ c := by omega
      by_cases hb : b = c
      · have hba : b ≠ a := by omega
        simp [Memory.writeByte, Memory.readByte, h1, h2, hb, h2.symm]
      · simp [Memory.writeByte, Memory.readByte, h1, h2, hb, ih hm.2]

/-- A read after a write gives the byte written, and every other byte as before. -/
theorem Memory.readByte_writeByte {m : List Host.Cell} (hm : Memory.wf m = true) (a b : Nat) (v : Byte) :
    Memory.readByte (Memory.writeByte m a v) b = if b = a then v else Memory.readByte m b :=
  Memory.readByte_writeByte_rises hm a b v

theorem Memory.risesFrom_ofImage (base : Nat) (bs : List Byte) :
    Memory.risesFrom base (Memory.ofImage base bs) = true := by
  induction bs generalizing base with
  | nil => rfl
  | cons b bs ih =>
    unfold Memory.ofImage
    split
    · exact Memory.risesFrom_mono (Nat.le_succ base) (ih (base + 1))
    · simp only [Memory.risesFrom, Bool.and_eq_true, decide_eq_true_eq]
      exact ⟨⟨le_refl base, by assumption⟩, ih (base + 1)⟩

/-- A loaded image is in canonical form. -/
theorem Memory.wf_ofImage (base : Nat) (bs : List Byte) : Memory.wf (Memory.ofImage base bs) = true :=
  Memory.risesFrom_mono (Nat.zero_le base) (Memory.risesFrom_ofImage base bs)

/-- A loaded image holds its bytes in order; past its end storage reads as unlisted. -/
theorem Memory.readByte_ofImage (base : Nat) (bs : List Byte) (o : Nat) :
    Memory.readByte (Memory.ofImage base bs) (base + o) = bs.getD o Memory.unlisted := by
  induction bs generalizing base o with
  | nil => simp [Memory.ofImage, Memory.readByte]
  | cons b bs ih =>
    cases o with
    | zero =>
      unfold Memory.ofImage
      split
      · rename_i hb
        simpa [hb] using Memory.readByte_below (Memory.risesFrom_ofImage (base + 1) bs) (Nat.lt_succ_self base)
      · simp [Memory.readByte]
    | succ o =>
      have hne : base + (o + 1) ≠ base := by omega
      have hs : base + (o + 1) = base + 1 + o := by omega
      unfold Memory.ofImage
      split
      · rw [hs, ih]; simp
      · simp only [Memory.readByte, hne, if_false]
        rw [hs, ih]; simp

/-- A loaded image lies in the range it was loaded to. -/
theorem Memory.within_ofImage (r : Range) (base : Nat) (bs : List Byte) (h : r.start ≤ base)
    (hs : base + bs.length ≤ r.start + r.size) : Memory.within r (Memory.ofImage base bs) = true := by
  induction bs generalizing base with
  | nil => rfl
  | cons b bs ih =>
    simp only [List.length_cons] at hs
    have tail : Memory.within r (Memory.ofImage (base + 1) bs) = true := ih (base + 1) (by omega) (by omega)
    unfold Memory.ofImage
    split
    · exact tail
    · simp only [Memory.within, List.all_cons, Bool.and_eq_true, decide_eq_true_eq] at tail ⊢
      exact ⟨⟨h, by omega⟩, tail⟩

theorem Memory.ofImage_zeros (base n : Nat) : Memory.ofImage base (List.replicate n Memory.unlisted) = [] := by
  induction n generalizing base with
  | zero => rfl
  | succ n ih => simp only [List.replicate_succ, Memory.ofImage, if_true, ih]

/-- The reset state is the core constructed from the default parameters and an image of zeros (log entry 31). -/
theorem State.construct_zeros :
    State.construct? Config.default (List.replicate Config.default.rom.size 0) = some State.reset := by
  have h := Memory.ofImage_zeros Config.default.rom.start Config.default.rom.size
  simp only [Memory.unlisted] at h
  simp only [State.construct?, List.length_replicate, if_true, State.reset, h]

end Sys2Proof.Machine
end

