-- ==== Sys2Proof/Laws/PerInstr.lean ====
section
/-! SUPPORT. The statements made per instruction: the word of an instruction fits its row of the opcode map
(30_encoding.md R107) and holds zeros in the fields the instruction does not use (R110). -/

namespace Sys2Proof.Laws.EncodingRow

/-- The encoded word agrees with the row's match under the row's mask, and its unused bits are 0. -/
def Statement (i : Instr) : Prop :=
  ∀ c : Config, encode c i &&& opcodeMask i.mnemonic = c.opcodeMatch i.mnemonic
    ∧ encode c i &&& unusedMask i.mnemonic = 0

theorem lui (rt : RegIdx) (imm : BitVec 16) : Statement (.lui rt imm) := fun _ =>
  ⟨layoutI_masked _ _ _ _, layoutI_rs_zero _ _ _⟩

theorem ori (rt rs : RegIdx) (imm : BitVec 16) : Statement (.ori rt rs imm) := fun _ =>
  ⟨layoutI_masked _ _ _ _, BitVec.and_zero⟩

theorem addiu (rt rs : RegIdx) (imm : BitVec 16) : Statement (.addiu rt rs imm) := fun _ =>
  ⟨layoutI_masked _ _ _ _, BitVec.and_zero⟩

theorem sll (rd rt : RegIdx) (shamt : BitVec 5) : Statement (.sll rd rt shamt) := fun _ =>
  ⟨layoutR_masked _ _ _ _ _ _, layoutR_rs_zero _ _ _ _ _⟩

theorem or (rd rs rt : RegIdx) : Statement (.or rd rs rt) := fun _ =>
  ⟨layoutR_masked _ _ _ _ _ _, layoutR_shamt_zero _ _ _ _ _⟩

theorem sw (rt : RegIdx) (offset : BitVec 16) (base : RegIdx) : Statement (.sw rt offset base) := fun _ =>
  ⟨layoutI_masked _ _ _ _, BitVec.and_zero⟩

theorem j (target : BitVec 26) : Statement (.j target) := fun _ =>
  ⟨layoutJ_masked _ _, BitVec.and_zero⟩

end Sys2Proof.Laws.EncodingRow
end

