-- ==== Sys2Proof/Tests/Slice0.lean ====
section
/-! SUPPORT. The model's own tests. Expected values are those of spec/95_test_vectors.md or of a rule's own worked
example, named before each test. Then one witness for each statement that has hypotheses. -/

namespace Sys2Proof.Tests

open Sys2Proof.Machine

/-! ### Helpers -/

/-- The reset state with registers preset and a word pending. -/
def start (pending : Word) (rs : List (RegIdx × Word)) : State :=
  rs.foldl (fun s p => s.setReg p.1 p.2) (State.reset.setPending pending)

/-- One field of the next state. -/
def after {α : Type} (s : State) (f : State → α) : Option α :=
  match step s with
  | .next t => some (f t)
  | .fault _ => none
  | .refused _ => none

/-- What a store leaves: `none` when it is accepted and changes nothing, otherwise its fault. -/
def storeFault (a v : Word) : Option Fault :=
  match State.reset.store32 a v with
  | .ok _ => none
  | .error f => some f

/-- The reset state with the first bytes of the ROM image given. -/
def withRom (bytes : List Byte) : State := { State.reset with mem := Memory.ofImage 0xBFC00000 bytes }

/-- A small core, for the witnesses: a ROM of two words. -/
def smallConfig : Config := { Config.default with rom := ⟨0xBFC00000, 8⟩ }

/-- Its image: `lui $1, 0x1234`, then a jump to the boot vector. -/
def smallImage : List Byte := [0x34, 0x12, 0x01, 0x3C, 0x00, 0x00, 0xF0, 0x0B]

/-! ### Decoding: words written out bit by bit from the layouts of 30_encoding.md R91 and the numbers of R102, R103 -/

/-- S3: `001111 00000 00001 0001001000110100`. -/
theorem test_decode_lui : decode Config.default 0b00111100000000010001001000110100 = .ok (.lui 1 0x1234) := by
  decide

/-- S4: `001101 00001 00010 0000000011111111`. -/
theorem test_decode_ori : decode Config.default 0b00110100001000100000000011111111 = .ok (.ori 2 1 0x00FF) := by
  decide

/-- S5: `001001 00011 00100 0000000000000001`. -/
theorem test_decode_addiu : decode Config.default 0b00100100011001000000000000000001 = .ok (.addiu 4 3 1) := by
  decide

/-- R150: `000000 00000 00010 00011 00100 000000`. -/
theorem test_decode_sll : decode Config.default 0b00000000000000100001100100000000 = .ok (.sll 3 2 4) := by decide

/-- R151: `000000 00011 00010 00100 00000 100101`. -/
theorem test_decode_or : decode Config.default 0b00000000011000100010000000100101 = .ok (.or 4 3 2) := by decide

/-- R160: `101011 00001 01000 0000000000000000`. -/
theorem test_decode_sw : decode Config.default 0b10101100001010000000000000000000 = .ok (.sw 8 0 1) := by decide

/-- R170: `000010 11111100000000000000000100`. -/
theorem test_decode_j : decode Config.default 0b00001011111100000000000000000100 = .ok (.j 0x3F00004) := by decide

/-- Section 2.8: `op = 3` and `op = 63` have no entry; `fn = 36` and `fn = 38` have none. -/
theorem test_decode_unknown :
    decode Config.default 0x0C000000 = .error .unknownPrimary
      ∧ decode Config.default 0xFFFFFFFF = .error .unknownPrimary
      ∧ decode Config.default 0x00000024 = .error .unknownSecondary
      ∧ decode Config.default 0x00000026 = .error .unknownSecondary := by decide

/-- Section 2.1, the fields of `0x12345678`. -/
theorem test_fields :
    opOf 0x12345678 = 4 ∧ rsOf 0x12345678 = 17 ∧ rtOf 0x12345678 = 20 ∧ rdOf 0x12345678 = 10
      ∧ shamtOf 0x12345678 = 25 ∧ fnOf 0x12345678 = 56 ∧ immOf 0x12345678 = 0x5678
      ∧ targetOf 0x12345678 = 0x2345678 ∧ simmOf 0x24228000 = 0xFFFF8000 := by decide

/-- P1: the bytes `00 1F 08 3C` are `lui $8, 0x1f00`; three bytes are no instruction. -/
theorem test_decodeBytes :
    decodeBytes Config.default [0x00, 0x1F, 0x08, 0x3C, 0x80] = .ok (.lui 8 0x1F00, [0x80])
      ∧ decodeBytes Config.default [0x00, 0x1F, 0x08] = .error .fewerThanFourBytes := by decide

/-- The encoder gives the words of P1 and P2. -/
theorem test_encode :
    encode Config.default (.lui 8 0x1F00) = 0x3C081F00 ∧ encode Config.default (.ori 1 1 0x1000) = 0x34211000
      ∧ encode Config.default (.addiu 2 2 2) = 0x24420002 ∧ encode Config.default (.sll 3 2 4) = 0x00021900
      ∧ encode Config.default (.or 4 3 2) = 0x00622025 ∧ encode Config.default (.sw 0 0xFFFC 3) = 0xAC60FFFC
      ∧ encode Config.default (.j 0x3F00004) = 0x0BF00004 := by decide

/-- R107: the match column under the default numbers. -/
theorem test_match_column :
    Config.default.opcodeMatch .sll = 0x00000000 ∧ Config.default.opcodeMatch .or = 0x00000025
      ∧ Config.default.opcodeMatch .j = 0x08000000 ∧ Config.default.opcodeMatch .addiu = 0x24000000
      ∧ Config.default.opcodeMatch .ori = 0x34000000 ∧ Config.default.opcodeMatch .lui = 0x3C000000
      ∧ Config.default.opcodeMatch .sw = 0xAC000000 := by decide

/-- The host's question on the table's rows: the match words, fields 0. -/
theorem test_decodeTableWord :
    decodeTableWord 32 0x00000000 = some (.sll 0 0 0) ∧ decodeTableWord 32 0x00000025 = some (.or 0 0 0)
      ∧ decodeTableWord 32 0x08000000 = some (.j 0) ∧ decodeTableWord 32 0x24000000 = some (.addiu 0 0 0)
      ∧ decodeTableWord 32 0x34000000 = some (.ori 0 0 0) ∧ decodeTableWord 32 0x3C000000 = some (.lui 0 0)
      ∧ decodeTableWord 32 0xAC000000 = some (.sw 0 0 0) ∧ decodeTableWord 32 0xFFFFFFFF = none := by decide

/-! ### Well-formedness: each check refuses an ill-formed term -/

theorem test_config_default : Config.default.valid = true := by decide

theorem test_config_refuses_bootVector : { Config.default with bootVector := 0xBFC00002 }.wellFormed = false := by
  decide

/-- Base, size and end of a range. -/
theorem test_config_refuses_range :
    { Config.default with rom := ⟨0xBFC00001, 0x80000⟩ }.wellFormed = false
      ∧ { Config.default with rom := ⟨0xBFC00000, 0x80002⟩ }.wellFormed = false
      ∧ { Config.default with ramSize := ⟨0x1F801060, 0⟩ }.wellFormed = false
      ∧ { Config.default with cacheCtrl := ⟨0xFFFFFFFC, 8⟩ }.wellFormed = false
      ∧ { Config.default with memCtrl := ⟨0x1F801002, 0x24⟩ }.wellFormed = false := by decide

/-- Each pair of ranges that overlap. -/
theorem test_config_refuses_overlap :
    { Config.default with memCtrl := ⟨0xBFC00000, 8⟩ }.wellFormed = false
      ∧ { Config.default with ramSize := ⟨0xBFC7FFFC, 4⟩ }.wellFormed = false
      ∧ { Config.default with cacheCtrl := ⟨0xBFBFFFFC, 8⟩ }.wellFormed = false
      ∧ { Config.default with ramSize := ⟨0x1F801020, 4⟩ }.wellFormed = false
      ∧ { Config.default with cacheCtrl := ⟨0x1F801000, 4⟩ }.wellFormed = false
      ∧ { Config.default with cacheCtrl := ⟨0x1F801060, 4⟩ }.wellFormed = false := by decide

/-- A memory-control range too small for its two validated words; opcode numbers that collide. -/
theorem test_config_refuses_numbers :
    { Config.default with memCtrl := ⟨0x1F801000, 4⟩ }.wellFormed = false
      ∧ { Config.default with opJ := 9 }.wellFormed = false
      ∧ { Config.default with opSw := 0 }.wellFormed = false
      ∧ { Config.default with fnOr := 0 }.wellFormed = false := by decide

/-- A `NOP_WORD` that writes a register, jumps, stores, or is no instruction. -/
theorem test_config_refuses_nopWord :
    { Config.default with nopWord := 0x3C011234 }.valid = false
      ∧ { Config.default with nopWord := 0x08000000 }.valid = false
      ∧ { Config.default with nopWord := 0xAC000000 }.valid = false
      ∧ { Config.default with nopWord := 0xFFFFFFFF }.valid = false := by decide

/-- Assembler operands out of range (R110). -/
theorem test_asm_refuses :
    Asm.wellFormed 0 (.lui 32 0) = false ∧ Asm.wellFormed 0 (.lui 0 0x10000) = false
      ∧ Asm.wellFormed 0 (.ori 0 32 0) = false ∧ Asm.wellFormed 0 (.addiu 0 0 32768) = false
      ∧ Asm.wellFormed 0 (.addiu 0 0 (-32769)) = false ∧ Asm.wellFormed 0 (.sll 0 0 32) = false
      ∧ Asm.wellFormed 0 (.or 0 0 32) = false ∧ Asm.wellFormed 0 (.sw 0 0 32) = false
      ∧ Asm.wellFormed 0 (.j 2) = false ∧ Asm.wellFormed 0 (.j 0x10000000) = false := by decide

/-- Listings of P1 and P2, and `nop` (R111). -/
theorem test_assemble :
    (Asm.sw 0 (-4) 3).assemble Config.default = 0xAC60FFFC
      ∧ (Asm.j 0xBFC00010).assemble Config.default = 0x0BF00004
      ∧ (Asm.addiu 2 1 (-1)).assemble Config.default = 0x2422FFFF
      ∧ Asm.nop.assemble Config.default = 0x00000000 := by decide

/-! ### Reset and registers (section 2.2) -/

theorem test_reset :
    State.reset.getReg 0 = 0 ∧ State.reset.getReg 31 = 0xDEADBEEF ∧ State.reset.pc = 0xBFC00000
      ∧ State.reset.nextInstruction = 0 ∧ State.reset.fault = none ∧ State.reset.trace = [] := by decide

theorem test_registers :
    (State.reset.setReg 0 0xFFFFFFFF).getReg 0 = 0 ∧ (State.reset.setReg 5 0).getReg 5 = 0
      ∧ (State.reset.setReg 31 0x80000001).getReg 31 = 0x80000001
      ∧ (State.reset.setReg 31 0x80000001).getReg 30 = 0xDEADBEEF := by decide

/-! ### Instructions, one step each (sections 2.3 to 2.7) -/

theorem test_lui_sets_the_upper_half : after (start 0x3C05FFFF []) (·.getReg 5) = some 0xFFFF0000 := by decide

/-- The `rs` field is ignored. -/
theorem test_lui_ignores_rs : after (start 0x3FE11234 []) (·.getReg 1) = some 0x12340000 := by decide

/-- Not sign-extended. -/
theorem test_ori_zero_extends : after (start 0x3422FFFF [(1, 0)]) (·.getReg 2) = some 0x0000FFFF := by decide

/-- Source is destination. -/
theorem test_ori_in_place : after (start 0x34218000 [(1, 0x12340000)]) (·.getReg 1) = some 0x12348000 := by decide

/-- S5: the sum wraps and no fault is raised. -/
theorem test_addiu_wraps :
    after (start 0x24640001 [(3, 0xFFFFFFFF)]) (fun t => (t.getReg 4, t.fault)) = some (0, none) := by decide

theorem test_addiu_subtracts : after (start 0x24228000 [(1, 0x00010000)]) (·.getReg 2) = some 0x00008000 := by decide

theorem test_sll_in_place : after (start 0x00021400 [(2, 0x1234ABCD)]) (·.getReg 2) = some 0xABCD0000 := by decide

theorem test_sll_by_31 : after (start 0x000117C0 [(1, 0x80000001)]) (·.getReg 2) = some 0x80000000 := by decide

theorem test_or_registers :
    after (start 0x00221825 [(1, 0xF0F00000), (2, 0x0F0F00FF)]) (·.getReg 3) = some 0xFFFF00FF := by decide

/-- The `shamt` field is ignored. -/
theorem test_or_ignores_shamt : after (start 0x00221FE5 [(1, 1), (2, 2)]) (·.getReg 3) = some 3 := by decide

/-- Alignment is tested on the sum, and an accepted store changes only what every step changes. -/
theorem test_sw_accepted :
    step (start 0xAC22FFFE [(1, 0x1F801062)]) =
      .next { start 0xAC22FFFE [(1, 0x1F801062)] with
        nextInstruction := 0, pc := 0xBFC00004, trace := [⟨0xAC22FFFE, .sw⟩] } := by rfl

/-- P4: a wrong value for memory-control word 0. -/
theorem test_sw_invalid_configuration_write :
    after (start 0xAC220000 [(1, 0x1F801000), (2, 0x12340000)]) (fun t => (t.fault, t.pc, t.trace))
      = some (some (.invalidConfigurationWrite 0x1F801000 0x12340000), 0xBFC00004, []) := by decide

/-- Section 2.7, with `pc_now = 0xBFC00008`. -/
theorem test_j_step : after ((start 0x0BF00004 []).setPc 0xBFC00008) (·.pc) = some 0xBFC00010 := by decide

/-- Section 2.7: the region bits come from `pc_now`. -/
theorem test_j_region :
    jumpTarget 0x1F801000 0x3F00004 = 0x1FC00010 ∧ jumpTarget 0xBFC00008 0x3FFFFFF = 0xBFFFFFFC
      ∧ jumpTarget 0xBFC00008 0 = 0xB0000000 ∧ jumpTarget 0 1 = 4 := by decide

/-- R109: the word 0 is traced as SLL and changes no register. -/
theorem test_nop_is_traced :
    after State.reset (fun t => (t.regs == State.reset.regs, t.trace)) = some (true, [⟨0, .sll⟩]) := by decide

/-! ### The bus (sections 2.5, 2.6) -/

theorem test_load :
    (withRom [0x34, 0x12, 0x01, 0x3C]).load32 0xBFC00000 = .ok 0x3C011234
      ∧ (withRom [0x34, 0x12, 0x01, 0x3C]).load32 0xBFC00004 = .ok 0
      ∧ State.reset.load32 0xBFC7FFFC = .ok 0
      ∧ State.reset.load32 0xBFC80000 = .error (.unmappedAddress 0xBFC80000)
      ∧ State.reset.load32 0xBFBFFFFC = .error (.unmappedAddress 0xBFBFFFFC)
      ∧ State.reset.load32 0xBFC00002 = .error (.unalignedAddress 0xBFC00002)
      ∧ State.reset.load32 0x1FC00000 = .error (.unmappedAddress 0x1FC00000)
      ∧ State.reset.load32 0x1F801000 = .error (.unmappedAddress 0x1F801000)
      ∧ State.reset.load32 0xFFFE0130 = .error (.unmappedAddress 0xFFFE0130) := by decide

theorem test_store :
    storeFault 0x1F801000 0x1F000000 = none
      ∧ storeFault 0x1F801000 0x1F000001 = some (.invalidConfigurationWrite 0x1F801000 0x1F000001)
      ∧ storeFault 0x1F801004 0x1F802000 = none
      ∧ storeFault 0x1F801004 0x1F000000 = some (.invalidConfigurationWrite 0x1F801004 0x1F000000)
      ∧ storeFault 0x1F801008 0 = none ∧ storeFault 0x1F801020 0 = none
      ∧ storeFault 0x1F801024 0 = some (.unmappedAddress 0x1F801024)
      ∧ storeFault 0x1F801060 0xB88 = none ∧ storeFault 0x1F801064 0 = some (.unmappedAddress 0x1F801064)
      ∧ storeFault 0xFFFE0130 0x804 = none ∧ storeFault 0xFFFE0134 0 = some (.unmappedAddress 0xFFFE0134)
      ∧ storeFault 0x1F801001 0 = some (.unalignedAddress 0x1F801001)
      ∧ storeFault 0xBFC00000 0 = some (.unmappedAddress 0xBFC00000)
      ∧ storeFault 0x00000000 0 = some (.unmappedAddress 0) := by decide

/-- A byte written is read back, and writing 0 removes the entry. -/
theorem test_memory :
    Memory.writeByte [(4, 1), (9, 2)] 6 7 = [(4, 1), (6, 7), (9, 2)]
      ∧ Memory.writeByte [(4, 1), (9, 2)] 4 0 = [(9, 2)] ∧ Memory.readByte [(4, 1), (9, 2)] 9 = 2
      ∧ Memory.readByte [(4, 1), (9, 2)] 5 = 0 ∧ Memory.wf [(9, 2), (4, 1)] = false
      ∧ Memory.wf [(4, 0)] = false := by decide

/-! ### Faults of the step (section 2.8, P5, P7, P8) -/

theorem test_unknown_primary :
    after (start 0xFFFFFFFF []) (fun t => (t.fault, t.pc, t.trace))
      = some (some (.unknownInstruction 0xFFFFFFFF), 0xBFC00004, []) := by decide

theorem test_unknown_secondary :
    after (start 0x0000003F []) (·.fault) = some (some (.unknownSecondaryOpInstruction 0x0000003F)) := by decide

/-- P7, step 3: the fetch at an unmapped target faults and the pending `addiu` does not execute. -/
theorem test_fetch_fault :
    step ((start 0x24020009 []).setPc 0xB0000000)
      = .next { (start 0x24020009 []).setPc 0xB0000000 with fault := some (.unmappedAddress 0xB0000000) } := by rfl

/-- R121: a faulted state takes no step. -/
theorem test_faulted_state_is_stuck :
    step (State.reset.raise (.unmappedAddress 4)) = .fault (.unmappedAddress 4) := by rfl

/-- The host's question: the placed word is the one the first step after reset runs. -/
theorem test_withFetchWord :
    after (State.reset.withFetchWord 32 0x3C011234) (fun t => (t.getReg 1, t.trace))
      = some (0x12340000, [⟨0x3C011234, .lui⟩]) := by decide

/-- R222: the host's view. -/
theorem test_observe : State.reset.observe.regs.length = 32 ∧ State.reset.observe.pc = 0xBFC00000 := by decide

/-! ### Witnesses: states and operands that meet the hypotheses of each statement together -/

/-- The small core right after construction. -/
def small : State := State.resetWith smallConfig (Memory.ofImage 0xBFC00000 smallImage)

theorem small_constructed : State.construct? smallConfig smallImage = some small := by rfl

theorem witness_CoreNeedsAFullImage :
    smallImage.length = smallConfig.rom.size ∧ ([] : List Byte).length ≠ smallConfig.rom.size := by decide

theorem witness_ResetLeavesTheNamedValues : ∃ s, State.construct? smallConfig smallImage = some s :=
  ⟨small, small_constructed⟩

theorem witness_RegisterWriteThenRead : (31 : RegIdx) ≠ 0 ∧ (30 : RegIdx) ≠ 31 := by decide

theorem witness_RomWordsAreLittleEndian :
    smallConfig.wellFormed = true ∧ Reachable smallConfig smallImage small ∧ 4 % 4 = 0 ∧ 4 + 4 ≤ smallImage.length :=
  ⟨by decide, .construct small_constructed, by decide, by decide⟩

theorem reset_meets_inv : State.reset.Inv := ⟨by decide, by decide, by decide, by decide, by decide⟩

theorem witness_MisalignedAccessFaultsFirst : (0x00000001 : Word).toNat % 4 ≠ 0 ∧ State.reset.Inv :=
  ⟨by decide, reset_meets_inv⟩

theorem witness_LoadOutcome : State.reset.config.wellFormed = true := by decide

/-- Each clause, at the ends of its range. -/
theorem witness_StoreOutcome :
    State.reset.config.wellFormed = true ∧ (0x1F801001 : Word).toNat % 4 ≠ 0
      ∧ StoreAccepted Config.default 0x1F801000 0x1F000000 ∧ StoreAccepted Config.default 0x1F801004 0x1F802000
      ∧ StoreAccepted Config.default 0x1F801020 0 ∧ StoreAccepted Config.default 0x1F801060 0
      ∧ StoreAccepted Config.default 0xFFFE0130 0
      ∧ ((0x1F801024 : Word).toNat % 4 = 0 ∧ rangeContains Config.default.memCtrl 0x1F801024 = false
        ∧ rangeContains Config.default.ramSize 0x1F801024 = false
        ∧ rangeContains Config.default.cacheCtrl 0x1F801024 = false)
      ∧ ((0x1F801000 : Word).toNat = Config.default.memCtrl.start ∧ (0 : Word) ≠ Config.default.exp1BaseExpected)
      ∧ ((0x1F801004 : Word).toNat = Config.default.memCtrl.start + 4
        ∧ (0 : Word) ≠ Config.default.exp2BaseExpected) := by
  unfold StoreAccepted; decide

theorem witness_RamSizeAndCacheControlAcceptAnyWord :
    State.reset.config.wellFormed = true
      ∧ (0x1F801060 : Word).toNat % 4 = 0 ∧ rangeContains State.reset.config.ramSize 0x1F801060 = true
      ∧ (0xFFFE0130 : Word).toNat % 4 = 0 ∧ rangeContains State.reset.config.cacheCtrl 0xFFFE0130 = true := by decide

theorem witness_MappingOrderIsUnobservable :
    Config.default.wellFormed = true ∧ (busMappings Config.default).reverse.Perm (busMappings Config.default) :=
  ⟨by decide, List.reverse_perm _⟩

theorem witness_DecodeOfEncode : Config.default.wellFormed = true := by decide

theorem witness_EncodeOfDecode :
    Config.default.wellFormed = true ∧ decode Config.default 0x3FE11234 = .ok (.lui 1 0x1234) := by decide

theorem witness_DecodeFollowsMaskAndMatch : Config.default.wellFormed = true := by decide

theorem witness_UnusedFieldsAreIgnored :
    Config.default.wellFormed = true ∧ decode Config.default 0x03E11100 = .ok (.sll 2 1 4)
      ∧ ((0x03E11100 : Word) ^^^ 0x00011100) &&& ~~~ unusedMask (Instr.sll 2 1 4).mnemonic = 0 := by decide

theorem witness_StepRunsThePendingInstruction :
    Running State.reset ∧ State.reset.load32 State.reset.pc = .ok 0
      ∧ decode State.reset.config State.reset.nextInstruction = .ok (.sll 0 0 0) := by decide

theorem witness_RunningStatesStep : Running State.reset := by decide

theorem witness_FaultedStatesDoNotStep :
    (State.reset.raise (.unmappedAddress 4)).fault = some (.unmappedAddress 4) := by rfl

theorem witness_FetchFaultEndsTheStep :
    Running (State.reset.setPc 0xB0000000)
      ∧ (State.reset.setPc 0xB0000000).load32 0xB0000000 = .error (.unmappedAddress 0xB0000000) := by decide

theorem witness_ExecuteFaultKeepsTheFetch :
    ∃ t, (start 0xAC000000 []).load32 0xBFC00000 = .ok 0 ∧ step (start 0xAC000000 []) = .next t
      ∧ t.fault = some (.unmappedAddress 0) :=
  ⟨_, by decide, rfl, by decide⟩

theorem witness_UnknownPrimaryFaults :
    Running (start 0xFFFFFFFF []) ∧ (start 0xFFFFFFFF []).load32 (start 0xFFFFFFFF []).pc = .ok 0
      ∧ primaryOpcode (start 0xFFFFFFFF []).config 0xFFFFFFFF = none := by decide

theorem witness_UnknownSecondaryFaults :
    Running (start 0x0000000C []) ∧ (start 0x0000000C []).load32 (start 0x0000000C []).pc = .ok 0
      ∧ primaryOpcode Config.default 0x0000000C = some .ext
      ∧ secondaryOpcode Config.default 0x0000000C = none := by decide

/-- One step that completes, and one that faults. -/
theorem witness_CompletedStepsAreTraced :
    (∃ t, step State.reset = .next t ∧ t.fault = none)
      ∧ ∃ t, step (start 0xFFFFFFFF []) = .next t ∧ t.fault ≠ none :=
  ⟨⟨_, rfl, by decide⟩, ⟨_, rfl, by decide⟩⟩

/-- A step of a jump, and one of another instruction. -/
theorem witness_PcMovesByFourOrByJump :
    (∃ t, CompletesTo (start 0x0BF00004 []) t) ∧ ∃ t, CompletesTo State.reset t :=
  ⟨⟨_, rfl, by decide⟩, ⟨_, rfl, by decide⟩⟩

theorem witness_LuiLoadsTheUpperHalf :
    Config.default.wellFormed = true ∧ (0x3FE11234 : Word) &&& 0xFC000000 = 0x3C000000 := by decide

theorem witness_OriOrsTheLowHalf :
    Config.default.wellFormed = true ∧ (0x342200FF : Word) &&& 0xFC000000 = 0x34000000 := by decide

theorem witness_AddiuAddsTheSignedImmediate :
    Config.default.wellFormed = true ∧ (0x24640001 : Word) &&& 0xFC000000 = 0x24000000 := by decide

theorem witness_SllShiftsLeft :
    Config.default.wellFormed = true ∧ opOf 0x03E11100 = Config.default.opExt
      ∧ fnOf 0x03E11100 = Config.default.fnSll ∧ (0x03E11100 : Word) &&& 0xFC00003F = 0x00000000 := by decide

theorem witness_OrOrsTwoRegisters :
    Config.default.wellFormed = true ∧ opOf 0x00221FE5 = Config.default.opExt
      ∧ fnOf 0x00221FE5 = Config.default.fnOr ∧ (0x00221FE5 : Word) &&& 0xFC00003F = 0x00000025 := by decide

theorem witness_SwCompletesWhereTheBusAccepts :
    (start 0 [(1, 0x1F801062)]).config.wellFormed = true
      ∧ StoreAccepted (start 0 [(1, 0x1F801062)]).config (effectiveAddress (start 0 [(1, 0x1F801062)]) 1 0xFFFE)
          ((start 0 [(1, 0x1F801062)]).getReg 2) := by
  unfold StoreAccepted; decide

/-- Each clause. -/
theorem witness_SwTrapsOnABusFault :
    Config.default.wellFormed = true
      ∧ (effectiveAddress (start 0 [(1, 2)]) 1 0).toNat % 4 ≠ 0
      ∧ ((effectiveAddress State.reset 0 0).toNat % 4 = 0
        ∧ rangeContains Config.default.memCtrl (effectiveAddress State.reset 0 0) = false
        ∧ rangeContains Config.default.ramSize (effectiveAddress State.reset 0 0) = false
        ∧ rangeContains Config.default.cacheCtrl (effectiveAddress State.reset 0 0) = false)
      ∧ ((effectiveAddress (start 0 [(1, 0x1F801000)]) 1 0).toNat = Config.default.memCtrl.start
        ∧ (start 0 [(1, 0x1F801000)]).getReg 0 ≠ Config.default.exp1BaseExpected)
      ∧ ((effectiveAddress (start 0 [(1, 0x1F801000)]) 1 4).toNat = Config.default.memCtrl.start + 4
        ∧ (start 0 [(1, 0x1F801000)]).getReg 0 ≠ Config.default.exp2BaseExpected) := by decide

theorem witness_JumpWritesPc : Config.default.wellFormed = true ∧ opOf 0x0BF00004 = Config.default.opJ := by decide

theorem witness_InstructionFrame : ∃ t, exec (.or 4 3 2) State.reset = .next t := ⟨_, rfl⟩

/-- Two states that differ in a register the instruction does not read. -/
theorem witness_InstructionsReadOnlyTheirSources :
    ∃ s s' t t' : State, s ≠ s' ∧ s.pc = s'.pc ∧ s.config = s'.config ∧ s.fault = s'.fault
      ∧ (∀ r ∈ (Instr.ori 2 1 0xFF).reads, s.getReg r = s'.getReg r)
      ∧ exec (.ori 2 1 0xFF) s = .next t ∧ exec (.ori 2 1 0xFF) s' = .next t' :=
  ⟨State.reset, State.reset.setReg 7 0, _, _, by decide, by decide, by decide, by decide, by decide, rfl, rfl⟩

theorem witness_OnlySwRaises :
    ∃ t, exec (.sw 0 0 0) State.reset = .next t ∧ t.fault ≠ State.reset.fault := ⟨_, rfl, by decide⟩

theorem witness_NoOpsChangeNothing : (Instr.lui 0 0x1234).isNoOp = true ∧ (Instr.or 1 1 0).isNoOp = true := by decide

theorem witness_PendingSlotIsNotTouched : ∃ t, exec (.j 4) State.reset = .next t := ⟨_, rfl⟩

theorem witness_TraceIsNeverRead : ∃ t, step State.reset = .next t := ⟨_, rfl⟩

/-- Another image with the same word at `pc`. -/
theorem witness_StepReadsOnlyTheWordAtPc :
    (∃ t, step State.reset = .next t)
      ∧ State.load32 { State.reset with mem := [(0xBFC00004, 1)] } State.reset.pc
          = State.reset.load32 State.reset.pc :=
  ⟨⟨_, rfl⟩, by decide⟩

theorem witness_NoStepChangesWhatIsFetched : ∃ t, step (start 0xAC000000 []) = .next t := ⟨_, rfl⟩

theorem witness_ConstructionMeetsTheInvariant :
    smallConfig.wellFormed = true ∧ State.construct? smallConfig smallImage = some small :=
  ⟨by decide, small_constructed⟩

theorem witness_StepKeepsTheInvariant : ∃ t, State.reset.Inv ∧ step State.reset = .next t := ⟨_, reset_meets_inv, rfl⟩

/-- An address no mapping claims, too, and one that one claims. -/
theorem witness_ReachableStatesKeepTheRules :
    smallConfig.wellFormed = true ∧ Reachable smallConfig smallImage small
      ∧ (∃ m ∈ busMappings small.config, rangeContains m.range 0xBFC00004 = true)
      ∧ ∀ m ∈ busMappings small.config, rangeContains m.range 0xBFC00008 = false :=
  ⟨by decide, .construct small_constructed, ⟨⟨smallConfig.rom, .bootRom⟩, by decide, by decide⟩, by decide⟩

/-- A trace with a record in it. -/
theorem witness_StepKeepsTheTraceDecodable :
    ∃ s t : State, s.trace ≠ [] ∧ TraceDecodes s ∧ step s = .next t :=
  ⟨{ State.reset with trace := [⟨0x3C011234, .lui⟩] }, _, by decide,
    fun r hr => ⟨.lui 1 0x1234, by
      have e : r = ⟨0x3C011234, .lui⟩ := by simpa using hr
      subst e
      decide⟩, rfl⟩

/-- The fault a step leaves, if any. -/
def raised (s : State) : Option Fault := (after s (·.fault)).join

/-- Both raisers: the fetch, outside the ROM and misaligned; the pending word, for each of the five faults at an end of
its range (the first words beyond the ROM and beyond memory control, both validated words). -/
theorem witness_RaisedFaultsAreTruthful :
    Config.default.wellFormed = true
      ∧ raised (State.reset.setPc 0xBFC80000) = some (.unmappedAddress 0xBFC80000)
      ∧ raised (State.reset.setPc 0xBFC00002) = some (.unalignedAddress 0xBFC00002)
      ∧ raised (start 0xAC22FFFF [(1, 0x1F801000)]) = some (.unalignedAddress 0x1F800FFF)
      ∧ raised (start 0xAC220024 [(1, 0x1F801000)]) = some (.unmappedAddress 0x1F801024)
      ∧ raised (start 0xAC220000 [(1, 0xBFC00000)]) = some (.unmappedAddress 0xBFC00000)
      ∧ raised (start 0xAC220000 [(1, 0x1F801000), (2, 7)]) = some (.invalidConfigurationWrite 0x1F801000 7)
      ∧ raised (start 0xAC220004 [(1, 0x1F801000), (2, 7)]) = some (.invalidConfigurationWrite 0x1F801004 7)
      ∧ raised (start 0xFFFFFFFF []) = some (.unknownInstruction 0xFFFFFFFF)
      ∧ raised (start 0x0000000C []) = some (.unknownSecondaryOpInstruction 0x0000000C) := by decide

theorem witness_FirstStepExecutesTheNoOp :
    smallConfig.valid = true ∧ State.construct? smallConfig smallImage = some small
      ∧ rangeContains smallConfig.rom smallConfig.bootVector = true :=
  ⟨by decide, small_constructed, by decide⟩

/-- P2, step 3: the J runs with the delay-slot `addiu` at `pc`. -/
def atJump (slot : List Byte) : State := { withRom slot with nextInstruction := 0x0BF00004 }

theorem witness_DelaySlotRunsBeforeTheTarget :
    Running (atJump [0x02, 0x00, 0x42, 0x24])
      ∧ decode Config.default (atJump [0x02, 0x00, 0x42, 0x24]).nextInstruction = .ok (.j 0x3F00004)
      ∧ (atJump [0x02, 0x00, 0x42, 0x24]).load32 0xBFC00000 = .ok 0x24420002
      ∧ (atJump [0x02, 0x00, 0x42, 0x24]).load32 (jumpTarget 0xBFC00000 0x3F00004) = .ok 0
      ∧ decode Config.default 0x24420002 = .ok (.addiu 2 2 2) := by decide

/-- P6, step 2: a J with a J in its delay slot. -/
theorem witness_JumpInADelaySlot :
    Running (atJump [0x08, 0x00, 0xF0, 0x0B])
      ∧ decode Config.default (atJump [0x08, 0x00, 0xF0, 0x0B]).nextInstruction = .ok (.j 0x3F00004)
      ∧ (atJump [0x08, 0x00, 0xF0, 0x0B]).load32 0xBFC00000 = .ok 0x0BF00008
      ∧ (atJump [0x08, 0x00, 0xF0, 0x0B]).load32 (jumpTarget 0xBFC00000 0x3F00004) = .ok 0
      ∧ decode Config.default 0x0BF00008 = .ok (.j 0x3F00008) := by decide

/-- P7, step 2: a J to an unmapped address. -/
theorem witness_JumpToAnUnloadableTarget :
    Running (start 0x08000000 []) ∧ decode Config.default (start 0x08000000 []).nextInstruction = .ok (.j 0)
      ∧ (start 0x08000000 []).load32 0xBFC00000 = .ok 0
      ∧ (start 0x08000000 []).load32 (jumpTarget 0xBFC00000 0) = .error (.unmappedAddress 0xB0000000) := by decide

theorem witness_StraightLineRun :
    ∃ t, Host.Core.run Sys2Proof.core 1 State.reset = .next t ∧ Running t
      ∧ ∀ r ∈ t.trace.drop State.reset.trace.length, r.mnemonic ≠ .j :=
  ⟨_, rfl, by decide, by decide⟩

/-- P8: `pc` one past the ROM. -/
theorem witness_FetchOutsideTheRomFaults :
    ∃ s : State, s.Inv ∧ Running s ∧ rangeContains s.config.rom s.pc = false :=
  ⟨State.reset.setPc 0xBFC80000, ⟨by decide, by decide, by decide, by decide, by decide⟩, by decide, by decide⟩

theorem witness_FreeRunStopsAtAFault : (freeRun 1 (start 0xFFFFFFFF [])).fault ≠ none := by decide

theorem witness_AssembledWordsKeepTheirOperands :
    Config.default.wellFormed = true ∧ Asm.wellFormed (State.reset.setPc 0xBFC0000C).pcNow (.j 0xBFC00010) = true
      ∧ Asm.wellFormed 0 (.lui 31 0xFFFF) = true ∧ Asm.wellFormed 0 (.ori 31 31 0xFFFF) = true
      ∧ Asm.wellFormed 0 (.addiu 0 31 32767) = true ∧ Asm.wellFormed 0 (.sll 31 31 31) = true
      ∧ Asm.wellFormed 0 (.or 31 31 31) = true ∧ Asm.wellFormed 0 (.sw 31 (-32768) 31) = true
      ∧ Asm.wellFormed 0 .nop = true
      ∧ Asm.wellFormed 0 (.addiu 31 1 (-32768)) = true ∧ 31 ≠ 0 := by decide

end Sys2Proof.Tests
end

section
/-! PROOFS of 10_state.md: register writes (O5), and the invariant of R41 over every run (O46). The invariant is
`State.Inv`: construction establishes it, every step keeps it, so every reachable state meets it. -/

namespace Sys2Proof.Machine

/-! ### Words that are multiples of 4 -/

/-- `pc + 4` stays a multiple of 4 even where it wraps (10_state.md R29), since 4 divides `2^32`. -/
theorem add_four_aligned {p : Word} (h : p.toNat % 4 = 0) : (p + 4).toNat % 4 = 0 := by
  have hadd : (p + 4).toNat = (p.toNat + 4) % 2 ^ 32 := BitVec.toNat_add p 4
  omega

/-- J jumps to a multiple of 4 (44_jump.md R170): the region's low bits are masked off, and the index is shifted
left by 2. -/
theorem jumpTarget_aligned (p : Word) (target : BitVec 26) : (jumpTarget p target).toNat % 4 = 0 := by
  have hregion : (p &&& (0xF0000000 : Word)).toNat % 2 ^ 2 = 0 := by
    rw [BitVec.toNat_and, Nat.and_mod_two_pow]
    exact Nat.and_zero _
  have hindex : ((target.setWidth 32 : Word) <<< 2).toNat % 2 ^ 2 = 0 := by
    rw [BitVec.toNat_shiftLeft, Nat.shiftLeft_eq]
    omega
  change ((p &&& (0xF0000000 : Word)) ||| ((target.setWidth 32 : Word) <<< 2)).toNat % 2 ^ 2 = 0
  rw [BitVec.toNat_or, Nat.or_mod_two_pow, hregion, hindex, Nat.or_zero]

/-! ### The invariant -/

/-- What a state needs to inherit the invariant from another one of the same core. -/
theorem State.Inv.transfer {s t : State} (h : s.Inv) (hzero : t.regs[0] = s.regs[0]) (hpc : t.pc.toNat % 4 = 0)
    (hmem : t.mem = s.mem) (hconfig : t.config = s.config) : t.Inv where
  zero_is_zero := hzero.trans h.zero_is_zero
  pc_aligned := hpc
  mem_wf := by rw [hmem]; exact h.mem_wf
  mem_in_rom := by rw [hmem, hconfig]; exact h.mem_in_rom
  config_wf := by rw [hconfig]; exact h.config_wf

theorem State.Inv.raise {s : State} (h : s.Inv) (f : Fault) : (s.raise f).Inv :=
  h.transfer rfl h.pc_aligned rfl rfl

theorem State.Inv.setReg {s : State} (h : s.Inv) (i : RegIdx) (v : Word) : (s.setReg i v).Inv :=
  h.transfer (s.setReg_regs_zero i v) (by simpa using h.pc_aligned) (by simp) (by simp)

theorem State.Inv.setPc {s : State} (h : s.Inv) {v : Word} (hv : v.toNat % 4 = 0) : (s.setPc v).Inv :=
  h.transfer rfl hv rfl rfl

theorem State.Inv.record {s : State} (h : s.Inv) (w : Word) (m : Mnemonic) : (s.record w m).Inv :=
  h.transfer (by simp) (by simpa using h.pc_aligned) (by simp) (by simp)

theorem State.Inv.fetched {s : State} (h : s.Inv) (w : Word) : (s.fetched w).Inv :=
  h.transfer rfl (add_four_aligned h.pc_aligned) rfl rfl

theorem exec_keeps_inv {i : Instr} {s t : State} (h : s.Inv) (he : exec i s = .next t) : t.Inv := by
  obtain ⟨rd, v, rfl, -⟩ | ⟨_, _, _, -, rfl⟩ | ⟨_, _, _, f, -, rfl, -⟩ | ⟨target, -, rfl⟩ := exec_cases he
  · exact h.setReg rd v
  · exact h
  · exact h.raise f
  · exact h.setPc (jumpTarget_aligned _ target)

theorem executeWord_keeps_inv {word : Word} {s t : State} (h : s.Inv) (he : executeWord word s = .next t) :
    t.Inv := by
  obtain ⟨i, u, -, hu, rfl⟩ | ⟨-, rfl⟩ | ⟨-, rfl⟩ := executeWord_cases he
  · exact (exec_keeps_inv h hu).record word i.mnemonic
  · exact h.raise _
  · exact h.raise _

theorem step_keeps_inv {s t : State} (h : s.Inv) (hs : step s = .next t) : t.Inv := by
  obtain ⟨-, ⟨f, -, rfl⟩ | ⟨w, -, he⟩⟩ := step_cases hs
  · exact h.raise f
  · exact executeWord_keeps_inv (h.fetched w) he

/-- A core is constructed in the state after reset, with the image at `ROM_BASE` (70_reset_and_hazards.md R210). -/
theorem construct_cases {c : Config} {image : List Byte} {s : State} (h : State.construct? c image = some s) :
    image.length = c.rom.size ∧ s = State.resetWith c (Memory.ofImage c.rom.start image) := by
  unfold State.construct? at h
  split at h
  · next hlen => exact ⟨hlen, (Option.some.inj h).symm⟩
  · cases h

theorem construct_meets_inv {c : Config} {image : List Byte} {s : State} (hc : c.wellFormed = true)
    (h : State.construct? c image = some s) : s.Inv := by
  obtain ⟨hlen, rfl⟩ := construct_cases h
  exact
    { zero_is_zero := by simp [State.resetWith]
      pc_aligned := (wellFormed_parts hc).1
      mem_wf := Memory.wf_ofImage _ _
      mem_in_rom := Memory.within_ofImage _ _ _ (Nat.le_refl _) (by simp [hlen])
      config_wf := hc }

/-! ### Every run -/

theorem Reachable.inv {c : Config} {image : List Byte} {s : State} (hc : c.wellFormed = true)
    (h : Reachable c image s) : s.Inv := by
  induction h with
  | construct h => exact construct_meets_inv hc h
  | next _ hstep ih => exact step_keeps_inv ih hstep

/-- A core keeps the parameters it was constructed with (10_state.md R38). -/
theorem Reachable.config_eq {c : Config} {image : List Byte} {s : State} (h : Reachable c image s) :
    s.config = c := by
  induction h with
  | construct h => obtain ⟨-, rfl⟩ := construct_cases h; rfl
  | next _ hstep ih => exact (step_keeps_construction hstep).2.trans ih

/-! ### Which device claims an address -/

/-- At most one mapping claims an address: the scan, which answers one mapping, answers each that does. -/
theorem mapping_unique {c : Config} (hc : c.wellFormed = true) {m m' : Mapping} (hm : m ∈ busMappings c)
    (hm' : m' ∈ busMappings c) {a : Word} (ha : rangeContains m.range a = true)
    (ha' : rangeContains m'.range a = true) : m = m' :=
  Option.some.inj ((findMapping_claims hc hm ha).symm.trans (findMapping_claims hc hm' ha'))

theorem findMapping_of_unclaimed {ms : List Mapping} {a : Word}
    (h : ∀ m ∈ ms, rangeContains m.range a = false) : findMapping ms a = none := by
  simpa [findMapping] using h

theorem store32_of_unclaimed {s : State} {a : Word} (v : Word)
    (h : ∀ m ∈ busMappings s.config, rangeContains m.range a = false) : ∃ f, s.store32 a v = .error f := by
  by_cases halign : a.toNat % 4 = 0
  · exact ⟨.unmappedAddress a, by simp [State.store32, halign, findMapping_of_unclaimed h]⟩
  · exact ⟨.unalignedAddress a, by simp [State.store32, halign]⟩

/-! ### The obligations -/

/-- Settles O46: the invariant holds of every reachable state, and the clauses on the bus follow from the core's own
parameters being well formed. -/
theorem reachableStatesKeepTheRules : Obligations.ReachableStatesKeepTheRules := by
  intro c image s hc hs
  have hinv : s.Inv := hs.inv hc
  have hunique : ∀ a, ∀ m ∈ busMappings s.config, ∀ m' ∈ busMappings s.config,
      rangeContains m.range a = true → rangeContains m'.range a = true → m = m' :=
    fun _ _ hm _ hm' => mapping_unique hinv.config_wf hm hm'
  have hscan : ∀ a, ∀ m ∈ busMappings s.config, rangeContains m.range a = true →
      findMapping (busMappings s.config) a = some m :=
    fun _ _ hm => findMapping_claims hinv.config_wf hm
  exact ⟨s.getReg_zero, hinv.zero_is_zero, hinv.pc_aligned, hunique, congrArg busMappings hs.config_eq, hscan,
    fun _ v => store32_of_unclaimed v⟩

/-- Settles O5, from the read-after-write laws of the register file and the frame of `setReg`, field by field. -/
theorem registerWriteThenRead : Obligations.RegisterWriteThenRead := by
  intro s i r v
  exact ⟨s.getReg_setReg_self i v, s.getReg_setReg_of_ne i r v, s.setReg_zero v, State.getReg_zero _,
    s.setReg_fault i v, s.setReg_pc i v, s.setReg_nextInstruction i v, s.setReg_trace i v, s.setReg_mem i v,
    s.setReg_config i v⟩

end Sys2Proof.Machine
end

section
/-! PROOFS of 20_memory.md: what the ROM reads as in every state of a run (O6), and the two registers that accept
any store (O10). On an aligned address a mapping claims, a bus access is the access of that mapping's device. -/

namespace Sys2Proof.Machine

/-! ### Ranges -/

/-- The conjuncts of `Range.wellFormed` (00_scope.md R18). -/
theorem range_wellFormed_iff (r : Range) :
    r.wellFormed = true ↔ r.start % 4 = 0 ∧ r.size % 4 = 0 ∧ 0 < r.size ∧ r.start + r.size ≤ 2 ^ 32 := by
  simp [Range.wellFormed, and_assoc]

/-- An offset into a well-formed range is an address: the sum does not wrap. -/
theorem toNat_ofNat_start_add {r : Range} (hr : r.wellFormed = true) {o : Nat} (ho : o < r.size) :
    (BitVec.ofNat 32 (r.start + o)).toNat = r.start + o := by
  obtain ⟨-, -, -, hend⟩ := (range_wellFormed_iff r).mp hr
  rw [BitVec.toNat_ofNat]
  exact Nat.mod_eq_of_lt (by omega)

/-! ### Accesses to a claimed address -/

/-- A load from an aligned address of a device's range is that device's read (20_memory.md R56). -/
theorem load32_of_claimed {s : State} {a : Word} {m : Mapping} (hc : s.config.wellFormed = true)
    (halign : a.toNat % 4 = 0) (hm : m ∈ busMappings s.config) (ha : rangeContains m.range a = true) :
    s.load32 a = deviceRead s a (a.toNat - m.range.start) m.device := by
  simp [State.load32, halign, findMapping_claims hc hm ha]

/-- A store to an aligned address of a device's range is that device's write (20_memory.md R57). -/
theorem store32_of_claimed {s : State} {a : Word} {m : Mapping} (v : Word) (hc : s.config.wellFormed = true)
    (halign : a.toNat % 4 = 0) (hm : m ∈ busMappings s.config) (ha : rangeContains m.range a = true) :
    s.store32 a v = deviceWrite s a (a.toNat - m.range.start) v m.device := by
  simp [State.store32, halign, findMapping_claims hc hm ha]

/-- A load from an aligned ROM address succeeds with the word stored there (20_memory.md R58). -/
theorem load32_of_rom {s : State} {a : Word} (hc : s.config.wellFormed = true) (halign : a.toNat % 4 = 0)
    (ha : rangeContains s.config.rom a = true) : s.load32 a = .ok (Memory.readWord s.mem a.toNat) := by
  have hstart : s.config.rom.start ≤ a.toNat := ((rangeContains_iff _ _).mp ha).1
  calc s.load32 a
      = deviceRead s a (a.toNat - s.config.rom.start) .bootRom :=
        load32_of_claimed (m := ⟨s.config.rom, .bootRom⟩) hc halign (by simp [busMappings]) ha
    _ = .ok (Memory.readWord s.mem (s.config.rom.start + (a.toNat - s.config.rom.start))) := rfl
    _ = .ok (Memory.readWord s.mem a.toNat) := by rw [Nat.add_sub_cancel' hstart]

/-! ### The ROM's words -/

/-- Putting four bytes together is the sum of R58, least significant byte first. -/
theorem toNat_wordOfBytes (b0 b1 b2 b3 : Byte) :
    (wordOfBytes b0 b1 b2 b3).toNat
      = b0.toNat + b1.toNat * 2 ^ 8 + b2.toNat * 2 ^ 16 + b3.toNat * 2 ^ 24 := by
  have happend : ∀ {n : Nat} (x : BitVec n) (b : Byte), (x ++ b).toNat = x.toNat * 2 ^ 8 + b.toNat := by
    intro n x b
    rw [BitVec.toNat_append, ← Nat.shiftLeft_add_eq_or_of_lt b.isLt, Nat.shiftLeft_eq]
  rw [wordOfBytes, happend, happend, happend]
  ring

/-- The word at an offset of a loaded image is the image's four bytes from there on. -/
theorem Memory.readWord_ofImage (base : Nat) (bs : List Byte) (o : Nat) :
    Memory.readWord (Memory.ofImage base bs) (base + o)
      = wordOfBytes (bs.getD o 0) (bs.getD (o + 1) 0) (bs.getD (o + 2) 0) (bs.getD (o + 3) 0) := by
  simp only [Memory.readWord, Nat.add_assoc, Memory.readByte_ofImage, Memory.unlisted]

theorem Reachable.image_length {c : Config} {image : List Byte} {s : State} (h : Reachable c image s) :
    image.length = c.rom.size := by
  induction h with
  | construct h => exact (construct_cases h).1
  | next _ _ ih => exact ih

/-- A core keeps the image it was constructed with (10_state.md R36, R38). -/
theorem Reachable.mem_eq {c : Config} {image : List Byte} {s : State} (h : Reachable c image s) :
    s.mem = Memory.ofImage c.rom.start image := by
  induction h with
  | construct h => obtain ⟨-, rfl⟩ := construct_cases h; rfl
  | next _ hstep ih => exact (step_keeps_construction hstep).1.trans ih

/-- In every state of a run, a load at an aligned offset of the ROM gives the image's four bytes from there on. -/
theorem Reachable.load32_rom {c : Config} {image : List Byte} {s : State} (hc : c.wellFormed = true)
    (hs : Reachable c image s) {o : Nat} (halign : o % 4 = 0) (ho : o + 4 ≤ image.length) :
    s.load32 (BitVec.ofNat 32 (c.rom.start + o))
      = .ok (wordOfBytes (image.getD o 0) (image.getD (o + 1) 0) (image.getD (o + 2) 0) (image.getD (o + 3) 0)) := by
  have hlen := hs.image_length
  obtain ⟨-, hrom, -⟩ := wellFormed_parts hc
  have haddr := toNat_ofNat_start_add hrom (show o < c.rom.size by omega)
  obtain ⟨hstart, -⟩ := (range_wellFormed_iff c.rom).mp hrom
  rw [load32_of_rom (by rwa [hs.config_eq]) (by omega) (by rw [hs.config_eq, rangeContains_iff]; omega),
    haddr, hs.mem_eq, Memory.readWord_ofImage]

/-! ### The obligations -/

/-- Settles O6: a run keeps the image it was constructed with, so the ROM's words are the image's in every state. -/
theorem romWordsAreLittleEndian : Obligations.RomWordsAreLittleEndian := by
  intro c image s hc hs o halign ho
  exact ⟨_, hs.load32_rom hc halign ho, toNat_wordOfBytes _ _ _ _⟩

/-- Settles O10: the bus hands the store to the register's own device, and that device's write answers the state it
was given. -/
theorem ramSizeAndCacheControlAcceptAnyWord : Obligations.RamSizeAndCacheControlAcceptAnyWord := by
  intro s a v hc halign ha
  obtain hram | hcache := ha
  · exact store32_of_claimed (m := ⟨s.config.ramSize, .ramSize⟩) v hc halign (by simp [busMappings]) hram
  · exact store32_of_claimed (m := ⟨s.config.cacheCtrl, .cacheCtrl⟩) v hc halign (by simp [busMappings]) hcache

end Sys2Proof.Machine
end

section
/-! PROOFS of 30_encoding.md: the fields of a word (O12). A field is a slice of the word's bits, and a slice is a
quotient by one power of two taken modulo another. -/

namespace Sys2Proof

/-! ### Slices -/

theorem toNat_slice (w : Word) (start len : Nat) :
    (w.extractLsb' start len).toNat = w.toNat / 2 ^ start % 2 ^ len := by
  rw [BitVec.extractLsb'_toNat, Nat.shiftRight_eq_div_pow]

/-- A slice that starts at bit 0 is a remainder. -/
theorem toNat_slice_zero (w : Word) (len : Nat) : (w.extractLsb' 0 len).toNat = w.toNat % 2 ^ len := by
  rw [toNat_slice, Nat.pow_zero, Nat.div_one]

/-! ### The fields (R92 to R100) -/

/-- The primary opcode is the top slice: nothing of the quotient is cut off. -/
theorem toNat_opOf (w : Word) : (opOf w).toNat = w.toNat / 2 ^ 26 := by
  rw [opOf, toNat_slice]
  exact Nat.mod_eq_of_lt (Nat.div_lt_of_lt_mul w.isLt)

theorem toNat_immOf (w : Word) : (immOf w).toNat = w.toNat % 2 ^ 16 := toNat_slice_zero w 16

/-- Sign extension adds the upper half of ones exactly when bit 15 is set (00_scope.md R13). -/
theorem toNat_sext32 (v : BitVec 16) :
    (sext32 v).toNat = if v.toNat < 2 ^ 15 then v.toNat else v.toNat + 0xFFFF0000 := by
  have hwide : (v.setWidth 32).toNat = v.toNat := BitVec.toNat_setWidth_of_le (by decide)
  have hsign : v.msb = decide (2 ^ 15 ≤ v.toNat) := BitVec.msb_eq_decide v
  rw [sext32, BitVec.toNat_signExtend, hwide, hsign]
  by_cases h : v.toNat < 2 ^ 15
  · rw [if_pos h, if_neg (by simpa using h), Nat.add_zero]
  · rw [if_neg h, if_pos (by simpa using h)]

/-- The sign bit of the immediate is bit 15 of the word. -/
theorem toNat_immOf_lt_iff (w : Word) : (immOf w).toNat < 2 ^ 15 ↔ w.toNat / 2 ^ 15 % 2 = 0 := by
  rw [toNat_immOf]
  omega

theorem toNat_simmOf (w : Word) :
    (simmOf w).toNat =
      if w.toNat / 2 ^ 15 % 2 = 0 then w.toNat % 2 ^ 16 else w.toNat % 2 ^ 16 + 0xFFFF0000 := by
  rw [simmOf, toNat_sext32, if_congr (toNat_immOf_lt_iff w) rfl rfl, toNat_immOf]

/-! ### The obligation -/

/-- Settles O12: each field is the slice at its bit positions; `simm` is decided by the sign bit of `imm`. -/
theorem fieldsAreBitSlices : Obligations.FieldsAreBitSlices := by
  intro w
  exact ⟨toNat_opOf w, toNat_slice_zero w 6, toNat_slice w 21 5, toNat_slice w 16 5, toNat_slice w 11 5,
    toNat_immOf w, toNat_simmOf w, toNat_slice w 6 5, toNat_slice_zero w 26⟩

end Sys2Proof
end

section
/-! PROOFS of 41_alu_immediate.md: LUI (O27), ORI (O28) and ADDIU (O29). Each is three facts: a word that matches the
instruction's row of the opcode map decodes to it, the value computed is the arithmetic of its rule, and one register
write is its whole effect. -/

namespace Sys2Proof

/-! ### A word under the primary opcode's mask (30_encoding.md R107) -/

/-- Masking a word clears its other fields, so the match column holds the opcode. -/
theorem opOf_of_masked {w : Word} {op : BitVec 6} (h : w &&& 0xFC000000 = layoutI op 0 0 0) : opOf w = op := by
  rw [← layoutI_fields w, layoutI_masked] at h
  simpa using congrArg opOf h

/-! ### What the primary opcode decides alone -/

theorem decode_of_opLui {c : Config} {w : Word} (hc : c.wellFormed = true) (hop : opOf w = opLui) :
    decode c w = .ok (.lui (rtOf w) (immOf w)) := by
  obtain ⟨-, -, -, -, hlui, -⟩ := primaryOpcode_eq hc w
  simp [decode, hlui.mpr hop]

theorem decode_of_opOri {c : Config} {w : Word} (hc : c.wellFormed = true) (hop : opOf w = opOri) :
    decode c w = .ok (.ori (rtOf w) (rsOf w) (immOf w)) := by
  obtain ⟨-, -, -, hori, -⟩ := primaryOpcode_eq hc w
  simp [decode, hori.mpr hop]

theorem decode_of_opAddiu {c : Config} {w : Word} (hc : c.wellFormed = true) (hop : opOf w = opAddiu) :
    decode c w = .ok (.addiu (rtOf w) (rsOf w) (immOf w)) := by
  obtain ⟨-, -, haddiu, -⟩ := primaryOpcode_eq hc w
  simp [decode, haddiu.mpr hop]

end Sys2Proof

namespace Sys2Proof.Machine

/-! ### The values computed -/

/-- The shift by 16 multiplies by 65536, and the product still fits a word. -/
theorem upperImm_eq_ofNat (imm : BitVec 16) : upperImm imm = BitVec.ofNat 32 (imm.toNat * 65536) := by
  apply BitVec.eq_of_toNat_eq
  simp [upperImm, zext32, Nat.shiftLeft_eq]

/-- A zero-extended immediate has only zeros to or into the upper half. -/
theorem aluOr_zext32 (x : Word) (imm : BitVec 16) :
    aluOr x (zext32 imm) = (x.extractLsb' 16 16 ++ (x.extractLsb' 0 16 ||| imm) : BitVec (16 + 16)) := by
  have hx : x = x.extractLsb' 16 16 ++ x.extractLsb' 0 16 := by
    rw [BitVec.extractLsb'_append_extractLsb'_eq_extractLsb' (show 16 = 0 + 16 from rfl),
      BitVec.extractLsb'_eq_self]
  have himm : zext32 imm = 0#16 ++ imm := BitVec.setWidth_eq_append (by decide)
  calc aluOr x (zext32 imm)
      = (x.extractLsb' 16 16 ++ x.extractLsb' 0 16) ||| (0#16 ++ imm) := by rw [aluOr, himm, ← hx]
    _ = (x.extractLsb' 16 16 ||| 0#16) ++ (x.extractLsb' 0 16 ||| imm) := BitVec.or_append
    _ = x.extractLsb' 16 16 ++ (x.extractLsb' 0 16 ||| imm) := by rw [BitVec.or_zero]

/-- Both the sign extension and the sum are those of the integers, reduced modulo `2^32`. -/
theorem aluAdd_sext32 (x : Word) (imm : BitVec 16) :
    aluAdd x (sext32 imm) = BitVec.ofInt 32 (x.toNat + imm.toInt) := by
  calc aluAdd x (sext32 imm)
      = x + BitVec.ofInt 32 imm.toInt := rfl
    _ = BitVec.ofInt 32 x.toNat + BitVec.ofInt 32 imm.toInt := by
        rw [BitVec.ofInt_natCast, BitVec.ofNat_toNat, BitVec.setWidth_eq]
    _ = BitVec.ofInt 32 (x.toNat + imm.toInt) := (BitVec.ofInt_add _ _).symm

/-! ### One register write as a whole effect -/

/-- A register write is seen by the reads of that register and by nothing else; register 0 discards it (10_state.md
R23). -/
theorem writesOnly_setReg (s : State) (rd : RegIdx) (v : Word) : WritesOnly s (s.setReg rd v) rd v := by
  refine ⟨fun r => ?_, s.setReg_pc rd v, s.setReg_nextInstruction rd v, s.setReg_fault rd v, s.setReg_trace rd v,
    s.setReg_config rd v, State.readByte_congr (s.setReg_mem rd v)⟩
  by_cases hr : r = rd
  · subst hr
    by_cases h0 : r = 0
    · simp [h0]
    · simp [h0, s.getReg_setReg_self r v h0]
  · simp [hr, s.getReg_setReg_of_ne rd r v hr]

/-! ### The obligations -/

/-- Settles O27: the mask leaves `rs` out of the encoding, and the upper immediate is the product of R140. -/
theorem luiLoadsTheUpperHalf : Obligations.LuiLoadsTheUpperHalf := by
  constructor
  · intro c w hc hw
    have hop : opOf w = opLui := opOf_of_masked (hw.trans (by decide))
    exact ⟨hop, decode_of_opLui hc hop⟩
  · intro s rt imm
    rw [← upperImm_eq_ofNat]
    exact ⟨_, rfl, writesOnly_setReg s rt _⟩

/-- Settles O28: the or with a zero-extended immediate is an or of the lower halves. -/
theorem oriOrsTheLowHalf : Obligations.OriOrsTheLowHalf := by
  constructor
  · intro c w hc hw
    have hop : opOf w = opOri := opOf_of_masked (hw.trans (by decide))
    exact ⟨hop, decode_of_opOri hc hop⟩
  · intro s rt rs imm
    rw [← aluOr_zext32]
    exact ⟨_, rfl, writesOnly_setReg s rt _⟩

/-- Settles O29: the sum of words is the sum of integers reduced modulo `2^32`, whatever carries or overflows. -/
theorem addiuAddsTheSignedImmediate : Obligations.AddiuAddsTheSignedImmediate := by
  constructor
  · intro c w hc hw
    have hop : opOf w = opAddiu := opOf_of_masked (hw.trans (by decide))
    exact ⟨hop, decode_of_opAddiu hc hop⟩
  · intro s rt rs imm
    rw [← aluAdd_sext32]
    exact ⟨_, rfl, writesOnly_setReg s rt _⟩

end Sys2Proof.Machine
end

section
/-! PROOFS of 30_encoding.md: the encoder and the decoder undo each other (O13, O14), the decoder follows the rows of
the opcode map (O15), it ignores the unused fields (O16), and the words of the test vectors (O17). The opcode fields
decide the form of a word; within a form, a word is the layout of its fields. -/

namespace Sys2Proof

/-! ### Decoding a word whose opcode fields are known -/

theorem decode_of_opSw {c : Config} {w : Word} (hc : c.wellFormed = true) (hop : opOf w = c.opSw) :
    decode c w = .ok (.sw (rtOf w) (immOf w) (rsOf w)) := by
  obtain ⟨-, -, -, -, -, hsw⟩ := primaryOpcode_eq hc w
  simp [decode, hsw.mpr hop]

theorem decode_of_opJ {c : Config} {w : Word} (hc : c.wellFormed = true) (hop : opOf w = c.opJ) :
    decode c w = .ok (.j (targetOf w)) := by
  obtain ⟨-, hj, -⟩ := primaryOpcode_eq hc w
  simp [decode, hj.mpr hop]

theorem decode_of_fnSll {c : Config} {w : Word} (hc : c.wellFormed = true) (hop : opOf w = c.opExt)
    (hfn : fnOf w = c.fnSll) : decode c w = .ok (.sll (rdOf w) (rtOf w) (shamtOf w)) := by
  obtain ⟨hext, -⟩ := primaryOpcode_eq hc w
  obtain ⟨hsll, -⟩ := secondaryOpcode_eq hc w
  simp [decode, hext.mpr hop, hsll.mpr hfn]

theorem decode_of_fnOr {c : Config} {w : Word} (hc : c.wellFormed = true) (hop : opOf w = c.opExt)
    (hfn : fnOf w = c.fnOr) : decode c w = .ok (.or (rdOf w) (rsOf w) (rtOf w)) := by
  obtain ⟨hext, -⟩ := primaryOpcode_eq hc w
  obtain ⟨-, hor⟩ := secondaryOpcode_eq hc w
  simp [decode, hext.mpr hop, hor.mpr hfn]

/-- The encoder puts the row's opcode into its fields, so the decoder takes the row's arm and reads the operands back
from the layout they were put into. -/
theorem decode_encode {c : Config} (hc : c.wellFormed = true) (i : Instr) : decode c (encode c i) = .ok i := by
  cases i with
  | lui rt imm => simp [encode, decode_of_opLui hc]
  | ori rt rs imm => simp [encode, decode_of_opOri hc]
  | addiu rt rs imm => simp [encode, decode_of_opAddiu hc]
  | sll rd rt shamt => simp [encode, decode_of_fnSll hc]
  | or rd rs rt => simp [encode, decode_of_fnOr hc]
  | sw rt offset base => simp [encode, decode_of_opSw hc]
  | j target => simp [encode, decode_of_opJ hc]

theorem encode_injective {c : Config} (hc : c.wellFormed = true) {i i' : Instr} (h : encode c i = encode c i') :
    i = i' :=
  Except.ok.inj ((decode_encode hc i).symm.trans (h ▸ decode_encode hc i'))

/-! ### The opcode fields of each row -/

/-- The word's opcode fields are those of the mnemonic's row (30_encoding.md R102, R103). -/
def Config.HasOpcodes (c : Config) (w : Word) : Mnemonic → Prop
  | .sll => opOf w = c.opExt ∧ fnOf w = c.fnSll
  | .or => opOf w = c.opExt ∧ fnOf w = c.fnOr
  | .j => opOf w = c.opJ
  | .addiu => opOf w = opAddiu
  | .ori => opOf w = opOri
  | .lui => opOf w = opLui
  | .sw => opOf w = c.opSw

/-- A decoded word has the opcode fields of its instruction's row, and the instruction holds the word's fields. -/
theorem decode_ok_cases {c : Config} (hc : c.wellFormed = true) {w : Word} {i : Instr} (h : decode c w = .ok i) :
    c.HasOpcodes w i.mnemonic ∧
      (i = .lui (rtOf w) (immOf w) ∨ i = .ori (rtOf w) (rsOf w) (immOf w) ∨ i = .addiu (rtOf w) (rsOf w) (immOf w)
        ∨ i = .sw (rtOf w) (immOf w) (rsOf w) ∨ i = .j (targetOf w) ∨ i = .sll (rdOf w) (rtOf w) (shamtOf w)
        ∨ i = .or (rdOf w) (rsOf w) (rtOf w)) := by
  obtain ⟨hext, hj, haddiu, hori, hlui, hsw⟩ := primaryOpcode_eq hc w
  obtain ⟨hsll, hor⟩ := secondaryOpcode_eq hc w
  rcases decode_cases c w with ⟨hp, hd⟩ | ⟨hp, hd⟩ | ⟨hp, hd⟩ | ⟨hp, hd⟩ | ⟨hp, hd⟩ | ⟨hp, hs, hd⟩ | ⟨hp, hs, hd⟩
    | ⟨hp, hs, hd⟩ | ⟨hp, hd⟩ <;> rw [hd] at h <;> cases h
  · exact ⟨hlui.mp hp, by simp⟩
  · exact ⟨hori.mp hp, by simp⟩
  · exact ⟨haddiu.mp hp, by simp⟩
  · exact ⟨hsw.mp hp, by simp⟩
  · exact ⟨hj.mp hp, by simp⟩
  · exact ⟨⟨hext.mp hp, hsll.mp hs⟩, by simp⟩
  · exact ⟨⟨hext.mp hp, hor.mp hs⟩, by simp⟩

/-- A word decodes to an instruction of a row exactly when it has the row's opcode fields. -/
theorem decode_mnemonic_iff {c : Config} (hc : c.wellFormed = true) (w : Word) (m : Mnemonic) :
    (∃ i, decode c w = .ok i ∧ i.mnemonic = m) ↔ c.HasOpcodes w m := by
  constructor
  · rintro ⟨i, hd, rfl⟩
    exact (decode_ok_cases hc hd).1
  · intro h
    cases m with
    | lui => exact ⟨_, decode_of_opLui hc h, rfl⟩
    | ori => exact ⟨_, decode_of_opOri hc h, rfl⟩
    | addiu => exact ⟨_, decode_of_opAddiu hc h, rfl⟩
    | sll => exact ⟨_, decode_of_fnSll hc h.1 h.2, rfl⟩
    | or => exact ⟨_, decode_of_fnOr hc h.1 h.2, rfl⟩
    | sw => exact ⟨_, decode_of_opSw hc h, rfl⟩
    | j => exact ⟨_, decode_of_opJ hc h, rfl⟩

/-! ### A word under a row's mask (30_encoding.md R107) -/

/-- The mask of a row with a primary opcode alone leaves exactly that opcode. -/
theorem masked_op_iff (w : Word) (op : BitVec 6) : w &&& 0xFC000000 = layoutI op 0 0 0 ↔ opOf w = op := by
  refine ⟨opOf_of_masked, fun h => ?_⟩
  rw [← layoutI_fields w, layoutI_masked, h]

/-- The mask of an extended row leaves exactly the two opcodes. -/
theorem masked_op_fn_iff (w : Word) (op fn : BitVec 6) :
    w &&& 0xFC00003F = layoutR op 0 0 0 0 fn ↔ opOf w = op ∧ fnOf w = fn := by
  have hw : w &&& 0xFC00003F = layoutR (opOf w) 0 0 0 0 (fnOf w) := by
    rw [← layoutR_masked (opOf w) (regBits (rsOf w)) (regBits (rtOf w)) (regBits (rdOf w)) (shamtOf w) (fnOf w),
      layoutR_fields]
  rw [hw]
  refine ⟨fun h => ⟨by simpa using congrArg opOf h, by simpa using congrArg fnOf h⟩, ?_⟩
  rintro ⟨rfl, rfl⟩
  rfl

theorem layoutJ_zero (op : BitVec 6) : layoutJ op 0 = layoutI op 0 0 0 := by
  rw [← layoutJ_masked op 0, masked_op_iff, opOf_layoutJ]

/-- A word matches a row's pattern under its mask exactly when it has the row's opcode fields. -/
theorem masked_eq_match_iff (c : Config) (w : Word) (m : Mnemonic) :
    w &&& opcodeMask m = c.opcodeMatch m ↔ c.HasOpcodes w m := by
  cases m with
  | lui => exact masked_op_iff w opLui
  | ori => exact masked_op_iff w opOri
  | addiu => exact masked_op_iff w opAddiu
  | sw => exact masked_op_iff w c.opSw
  | j => exact (Eq.congr_right (layoutJ_zero c.opJ)).trans (masked_op_iff w c.opJ)
  | sll => exact masked_op_fn_iff w c.opExt c.fnSll
  | or => exact masked_op_fn_iff w c.opExt c.fnOr

/-! ### A word with its unused fields cleared (30_encoding.md R106) -/

theorem layoutI_clear_rs (op : BitVec 6) (rs rt : BitVec 5) (imm : BitVec 16) :
    layoutI op rs rt imm &&& ~~~ (0x03E00000 : Word) = layoutI op 0 rt imm := by
  have e : ~~~ (0x03E00000 : Word) = layoutI (BitVec.allOnes 6) 0 (BitVec.allOnes 5) (BitVec.allOnes 16) := by decide
  rw [e, layoutI_and]; simp only [BitVec.and_allOnes, and_literal_zero]

theorem layoutR_clear_rs (op : BitVec 6) (rs rt rd sh : BitVec 5) (fn : BitVec 6) :
    layoutR op rs rt rd sh fn &&& ~~~ (0x03E00000 : Word) = layoutR op 0 rt rd sh fn := by
  have e : ~~~ (0x03E00000 : Word) = layoutR (BitVec.allOnes 6) 0 (BitVec.allOnes 5) (BitVec.allOnes 5)
      (BitVec.allOnes 5) (BitVec.allOnes 6) := by decide
  rw [e, layoutR_and]; simp only [BitVec.and_allOnes, and_literal_zero]

theorem layoutR_clear_shamt (op : BitVec 6) (rs rt rd sh : BitVec 5) (fn : BitVec 6) :
    layoutR op rs rt rd sh fn &&& ~~~ (0x000007C0 : Word) = layoutR op rs rt rd 0 fn := by
  have e : ~~~ (0x000007C0 : Word) = layoutR (BitVec.allOnes 6) (BitVec.allOnes 5) (BitVec.allOnes 5)
      (BitVec.allOnes 5) 0 (BitVec.allOnes 6) := by decide
  rw [e, layoutR_and]; simp only [BitVec.and_allOnes, and_literal_zero]

theorem and_not_literal_zero (w : Word) : w &&& ~~~ (0 : Word) = w := BitVec.and_allOnes

/-- Encoding what a word decodes to is laying out the word's own fields, with 0 in the unused ones. -/
theorem encode_of_decode {c : Config} (hc : c.wellFormed = true) {w : Word} {i : Instr} (h : decode c w = .ok i) :
    encode c i = w &&& ~~~ unusedMask i.mnemonic := by
  obtain ⟨hop, rfl | rfl | rfl | rfl | rfl | rfl | rfl⟩ := decode_ok_cases hc h <;>
    simp only [Config.HasOpcodes, Instr.mnemonic] at hop <;>
    simp only [encode, unusedMask, Instr.mnemonic, and_not_literal_zero]
  · rw [← layoutI_clear_rs _ (regBits (rsOf w)), ← hop, layoutI_fields]
  · rw [← hop, layoutI_fields]
  · rw [← hop, layoutI_fields]
  · rw [← hop, layoutI_fields]
  · rw [← hop, layoutJ_fields]
  · obtain ⟨hext, hfn⟩ := hop
    rw [← layoutR_clear_rs _ (regBits (rsOf w)), ← hext, ← hfn, layoutR_fields]
  · obtain ⟨hext, hfn⟩ := hop
    rw [← layoutR_clear_shamt _ _ _ _ (shamtOf w), ← hext, ← hfn, layoutR_fields]

/-- No row masks a bit it does not use, so clearing the unused bits keeps the masked ones. -/
theorem clear_unused_and_opcodeMask (w : Word) (m : Mnemonic) :
    (w &&& ~~~ unusedMask m) &&& opcodeMask m = w &&& opcodeMask m := by
  have hm : ~~~ unusedMask m &&& opcodeMask m = opcodeMask m := by cases m <;> decide
  rw [BitVec.and_assoc, hm]

/-- Bits that agree outside a mask are the same once the mask is cleared. -/
theorem clear_eq_of_xor {w w' mask : Word} (h : (w ^^^ w') &&& ~~~ mask = 0) : w' &&& ~~~ mask = w &&& ~~~ mask := by
  have hdistrib : (w ^^^ w') &&& ~~~ mask = (w &&& ~~~ mask) ^^^ (w' &&& ~~~ mask) := by
    apply BitVec.eq_of_toNat_eq
    simp only [BitVec.toNat_and, BitVec.toNat_xor, Nat.and_xor_distrib_right]
  rw [hdistrib] at h
  exact (BitVec.xor_eq_zero_iff.mp h).symm

/-! ### The obligations -/

/-- Settles O13: the decoder takes the row's arm and reads the fields back. -/
theorem decodeOfEncode : Obligations.DecodeOfEncode :=
  fun _ i hc => decode_encode hc i

/-- Settles O14: a word is the layout of its fields, and clearing a field of a layout puts 0 there. -/
theorem encodeOfDecode : Obligations.EncodeOfDecode :=
  fun _ _ _ hc h => encode_of_decode hc h

/-- Settles O15: both sides say that the word has the row's opcode fields. -/
theorem decodeFollowsMaskAndMatch : Obligations.DecodeFollowsMaskAndMatch :=
  fun c w m hc => (decode_mnemonic_iff hc w m).trans (masked_eq_match_iff c w m).symm

/-- Settles O16: the other word matches the same row, so it decodes to some instruction of it; the encodings of the
two are the two words with the unused bits cleared, which are equal. -/
theorem unusedFieldsAreIgnored : Obligations.UnusedFieldsAreIgnored := by
  intro c w w' i hc hd hxor
  have hclear : w' &&& ~~~ unusedMask i.mnemonic = w &&& ~~~ unusedMask i.mnemonic := clear_eq_of_xor hxor
  have hmask : w' &&& opcodeMask i.mnemonic = w &&& opcodeMask i.mnemonic := by
    rw [← clear_unused_and_opcodeMask, hclear, clear_unused_and_opcodeMask]
  have hrow : c.HasOpcodes w' i.mnemonic := by
    rw [← masked_eq_match_iff, hmask, masked_eq_match_iff, ← decode_mnemonic_iff hc]
    exact ⟨i, hd, rfl⟩
  obtain ⟨i', hd', hm⟩ := (decode_mnemonic_iff hc w' _).mpr hrow
  have henc : encode c i' = encode c i := by
    rw [encode_of_decode hc hd', encode_of_decode hc hd, hm, hclear]
  rw [hd', encode_injective hc henc]

/-- Settles O17, by running the decoder on the nine words. -/
theorem exampleWordsDecode : Obligations.ExampleWordsDecode := by
  unfold Obligations.ExampleWordsDecode
  decide

end Sys2Proof
end

section
/-! PROOFS of 40_step_dispatch.md: one step. What it executes and answers (O18 to O20), what its faults leave (O21 to
O24), its trace record and its `pc` (O25, O26), and that it keeps the invariant and the decodable trace (O45, O47).
A step ends in one of four ways (`step_outcomes`): its fetch faults, the pending word has no entry in one of the two
opcode tables, or the instruction it decodes to runs after the fetch's writes. -/

namespace Sys2Proof.Machine

/-! ### The writes of the fetch -/

@[simp] theorem State.fetched_regs (s : State) (w : Word) : (s.fetched w).regs = s.regs := rfl
@[simp] theorem State.fetched_pc (s : State) (w : Word) : (s.fetched w).pc = s.pc + 4 := rfl
@[simp] theorem State.fetched_nextInstruction (s : State) (w : Word) : (s.fetched w).nextInstruction = w := rfl
@[simp] theorem State.fetched_fault (s : State) (w : Word) : (s.fetched w).fault = s.fault := rfl
@[simp] theorem State.fetched_trace (s : State) (w : Word) : (s.fetched w).trace = s.trace := rfl
@[simp] theorem State.fetched_mem (s : State) (w : Word) : (s.fetched w).mem = s.mem := rfl
@[simp] theorem State.fetched_config (s : State) (w : Word) : (s.fetched w).config = s.config := rfl
@[simp] theorem State.getReg_fetched (s : State) (w : Word) (i : RegIdx) : (s.fetched w).getReg i = s.getReg i := rfl
@[simp] theorem State.pcNow_fetched (s : State) (w : Word) : (s.fetched w).pcNow = s.pc := by simp [State.pcNow]

/-! ### `pc` and the fault field across an instruction -/

theorem exec_keeps_pc {i : Instr} {s t : State} (h : exec i s = .next t) (hj : i.mnemonic ≠ .j) : t.pc = s.pc := by
  obtain ⟨rd, v, rfl, -⟩ | ⟨_, _, _, -, rfl⟩ | ⟨_, _, _, f, -, rfl, -⟩ | ⟨target, rfl, rfl⟩ := exec_cases h
  · simp
  · rfl
  · rfl
  · exact absurd rfl hj

/-- The fault field changes only where the bus refuses a store of SW, and then nothing else does. -/
theorem exec_changes_fault {i : Instr} {s t : State} (h : exec i s = .next t) (hf : t.fault ≠ s.fault) :
    ∃ rt offset base f, i = .sw rt offset base ∧ t = s.raise f
      ∧ s.store32 (effectiveAddress s base offset) (s.getReg rt) = .error f := by
  obtain ⟨rd, v, rfl, -⟩ | ⟨_, _, _, -, rfl⟩ | hraise | ⟨target, rfl, rfl⟩ := exec_cases h
  · exact absurd (s.setReg_fault rd v) hf
  · exact absurd rfl hf
  · exact hraise
  · exact absurd rfl hf

/-! ### The ways a step can end -/

theorem executeWord_of_decoded {word : Word} {i : Instr} {s u : State} (hd : decode s.config word = .ok i)
    (hu : exec i s = .next u) : executeWord word s = .next (u.record word i.mnemonic) := by
  simp only [executeWord, hd, hu]

theorem executeWord_of_unknownPrimary {word : Word} {s : State} (h : primaryOpcode s.config word = none) :
    executeWord word s = .next (s.raise (.unknownInstruction word)) := by
  simp only [executeWord, (decode_unknownPrimary_iff s.config word).mpr h]

theorem executeWord_of_unknownSecondary {word : Word} {s : State} (h : primaryOpcode s.config word = some .ext)
    (h' : secondaryOpcode s.config word = none) :
    executeWord word s = .next (s.raise (.unknownSecondaryOpInstruction word)) := by
  simp only [executeWord, (decode_unknownSecondary_iff s.config word).mpr ⟨h, h'⟩]

theorem executeWord_answers (word : Word) (s : State) : ∃ t, executeWord word s = .next t := by
  rcases hd : decode s.config word with (_ | _) | i
  · exact ⟨_, executeWord_of_unknownPrimary ((decode_unknownPrimary_iff _ _).mp hd)⟩
  · obtain ⟨h, h'⟩ := (decode_unknownSecondary_iff _ _).mp hd
    exact ⟨_, executeWord_of_unknownSecondary h h'⟩
  · obtain ⟨u, hu⟩ := exec_answers i s
    exact ⟨_, executeWord_of_decoded hd hu⟩

theorem step_of_running {s : State} (h : Running s) : ∃ t, step s = .next t := by
  cases hl : s.load32 s.pc with
  | error f => exact ⟨_, step_of_fetch_fault h hl⟩
  | ok w => rw [step_of_fetch h hl]; exact executeWord_answers _ _

/-- The step whose pending word is an instruction: the instruction runs after the fetch's writes and is recorded. -/
theorem step_of_decoded {s u : State} {w : Word} {i : Instr} (hr : Running s) (hl : s.load32 s.pc = .ok w)
    (hd : decode s.config s.nextInstruction = .ok i) (hu : exec i (s.fetched w) = .next u) :
    step s = .next (u.record s.nextInstruction i.mnemonic) :=
  (step_of_fetch hr hl).trans (executeWord_of_decoded hd hu)

/-- The four ways a step can end. -/
theorem step_outcomes {s t : State} (h : step s = .next t) :
    Running s ∧
      ((∃ f, s.load32 s.pc = .error f ∧ t = s.raise f)
        ∨ ∃ w, s.load32 s.pc = .ok w ∧
            ((∃ i u, decode s.config s.nextInstruction = .ok i ∧ exec i (s.fetched w) = .next u
                ∧ t = u.record s.nextInstruction i.mnemonic)
              ∨ (primaryOpcode s.config s.nextInstruction = none
                  ∧ t = (s.fetched w).raise (.unknownInstruction s.nextInstruction))
              ∨ (primaryOpcode s.config s.nextInstruction = some .ext
                  ∧ secondaryOpcode s.config s.nextInstruction = none
                  ∧ t = (s.fetched w).raise (.unknownSecondaryOpInstruction s.nextInstruction)))) := by
  obtain ⟨hr, hfault | ⟨w, hl, he⟩⟩ := step_cases h
  · exact ⟨hr, .inl hfault⟩
  · refine ⟨hr, .inr ⟨w, hl, ?_⟩⟩
    obtain hdecoded | ⟨hd, ht⟩ | ⟨hd, ht⟩ := executeWord_cases he
    · exact .inl hdecoded
    · exact .inr (.inl ⟨(decode_unknownPrimary_iff _ _).mp hd, ht⟩)
    · obtain ⟨hp, hs⟩ := (decode_unknownSecondary_iff _ _).mp hd
      exact .inr (.inr ⟨hp, hs, ht⟩)

/-- A step that completes executed the instruction the pending word decodes to. -/
theorem CompletesTo.decoded {s t : State} (h : CompletesTo s t) :
    Running s ∧ ∃ w i u, s.load32 s.pc = .ok w ∧ decode s.config s.nextInstruction = .ok i
      ∧ exec i (s.fetched w) = .next u ∧ Running u ∧ t = u.record s.nextInstruction i.mnemonic := by
  obtain ⟨hstep, ht⟩ := h
  obtain ⟨hr, ⟨f, -, rfl⟩ | ⟨w, hl, ⟨i, u, hd, hu, rfl⟩ | ⟨-, rfl⟩ | ⟨-, -, rfl⟩⟩⟩ := step_outcomes hstep
  · cases ht
  · exact ⟨hr, w, i, u, hl, hd, hu, (State.record_fault _ _ _).symm.trans ht, rfl⟩
  · cases ht
  · cases ht

/-- The trace of a step: one record, of the executed word, if it ends without a fault, and none if it faults. -/
theorem step_trace {s t : State} (h : step s = .next t) :
    (Running t ∧ ∃ i, decode s.config s.nextInstruction = .ok i
        ∧ t.trace = s.trace ++ [⟨s.nextInstruction, i.mnemonic⟩])
      ∨ (¬ Running t ∧ t.trace = s.trace) := by
  obtain ⟨-, ⟨f, -, rfl⟩ | ⟨w, -, ⟨i, u, hd, hu, rfl⟩ | ⟨-, rfl⟩ | ⟨-, -, rfl⟩⟩⟩ := step_outcomes h
  · exact .inr ⟨by simp [Running], rfl⟩
  · obtain ⟨-, htrace, -⟩ := exec_keeps hu
    cases hf : u.fault with
    | none =>
      refine .inl ⟨(State.record_fault _ _ _).trans hf, i, hd, ?_⟩
      rw [State.record_trace_running _ _ _ hf, htrace, State.fetched_trace]
    | some f => rw [State.record_of_fault _ _ _ f hf]; exact .inr ⟨by simp [Running, hf], htrace⟩
  · exact .inr ⟨by simp [Running], rfl⟩
  · exact .inr ⟨by simp [Running], rfl⟩

/-! ### The obligations -/

/-- Settles O18: the fetch's two writes are the record update of the statement, and every instruction answers. -/
theorem stepRunsThePendingInstruction : Obligations.StepRunsThePendingInstruction := by
  intro s w i hr hl hd
  obtain ⟨u, hu⟩ := exec_answers i (s.fetched w)
  have hu' : exec i { s with nextInstruction := w, pc := s.pc + 4 } = .next u := hu
  rw [hu']
  exact step_of_decoded hr hl hd hu

/-- Settles O19: a running state has a next state, and a faulted one answers its fault. -/
theorem runningStatesStep : Obligations.RunningStatesStep := by
  refine fun s => ⟨step_of_running, fun r hr => ?_⟩
  cases hf : s.fault with
  | none => obtain ⟨t, ht⟩ := step_of_running hf; rw [ht] at hr; cases hr
  | some f => rw [step_of_fault hf] at hr; cases hr

/-- Settles O20: the fault field is looked at first. -/
theorem faultedStatesDoNotStep : Obligations.FaultedStatesDoNotStep :=
  fun _ _ => step_of_fault

/-- Settles O21: the load at `pc` does not depend on the pending word. -/
theorem fetchFaultEndsTheStep : Obligations.FetchFaultEndsTheStep := by
  intro s f pending hr hl
  exact step_of_fetch_fault (s := s.setPending pending) hr ((State.load32_congr rfl rfl s.pc).trans hl)

/-- Settles O22: the fetch left the fault field empty, so the executed word filled it, by a store the bus refused or
by having no entry; neither does anything else. -/
theorem executeFaultKeepsTheFetch : Obligations.ExecuteFaultKeepsTheFetch := by
  intro s t w f hl hstep hf
  obtain ⟨hr, ⟨g, hl', -⟩ | ⟨w', hl', hexec⟩⟩ := step_outcomes hstep
  · rw [hl] at hl'; cases hl'
  · rw [hl] at hl'
    cases hl'
    obtain ⟨i, u, -, hu, rfl⟩ | ⟨-, rfl⟩ | ⟨-, -, rfl⟩ := hexec
    · rw [State.record_fault] at hf
      have hchanged : u.fault ≠ (s.fetched w).fault := by rw [hf, State.fetched_fault, hr]; simp
      obtain ⟨_, _, _, g, -, rfl, -⟩ := exec_changes_fault hu hchanged
      cases hf
      exact State.record_of_fault _ _ _ _ rfl
    · cases hf; rfl
    · cases hf; rfl

/-- Settles O23: the executed word raises its fault over the state the fetch left. -/
theorem unknownPrimaryFaults : Obligations.UnknownPrimaryFaults := by
  intro s w hr hl hp
  exact ⟨_, (step_of_fetch hr hl).trans (executeWord_of_unknownPrimary hp), rfl, fun _ => rfl, rfl, rfl, rfl, rfl,
    fun _ => rfl⟩

/-- Settles O24: as for a word with an unknown primary opcode, with the other fault. -/
theorem unknownSecondaryFaults : Obligations.UnknownSecondaryFaults := by
  intro s w hr hl hp hs
  exact ⟨_, (step_of_fetch hr hl).trans (executeWord_of_unknownSecondary hp hs), rfl, fun _ => rfl, rfl, rfl, rfl,
    rfl, fun _ => rfl⟩

/-- Settles O25: the two ways of `step_trace` exclude each other. -/
theorem completedStepsAreTraced : Obligations.CompletedStepsAreTraced := by
  intro s t h
  obtain ⟨ht, htrace⟩ | ⟨ht, htrace⟩ := step_trace h
  · exact ⟨fun _ => htrace, fun hne => absurd ht hne⟩
  · exact ⟨fun hnone => absurd hnone ht, fun _ => htrace⟩

/-- Settles O26: the fetch advances `pc` by 4, and of the instructions only J writes it again. -/
theorem pcMovesByFourOrByJump : Obligations.PcMovesByFourOrByJump := by
  intro s t h
  obtain ⟨-, w, i, u, -, hd, hu, -, rfl⟩ := h.decoded
  rw [hd, State.record_pc]
  by_cases hj : i.mnemonic = .j
  · cases i with
    | j target => cases hu; exact .inl ⟨target, rfl, by simp⟩
    | _ => cases hj
  · refine .inr ⟨?_, exec_keeps_pc hu hj⟩
    rintro target ⟨⟩
    exact hj rfl

/-- Settles O45: every write of a step keeps the invariant, the `+4` and the jump by keeping `pc` a multiple of 4. -/
theorem stepKeepsTheInvariant : Obligations.StepKeepsTheInvariant :=
  fun _ _ => step_keeps_inv

/-- Settles O47: the record a step appends is of the pending word and of what that word decodes to under parameters
that no step changes. -/
theorem stepKeepsTheTraceDecodable : Obligations.StepKeepsTheTraceDecodable := by
  intro s t hs hstep r hr
  rw [(step_keeps_construction hstep).2]
  obtain ⟨-, i, hd, htrace⟩ | ⟨-, htrace⟩ := step_trace hstep
  · rw [htrace, List.mem_append, List.mem_singleton] at hr
    obtain hold | rfl := hr
    · exact hs r hold
    · exact ⟨i, hd, rfl⟩
  · exact hs r (htrace ▸ hr)

end Sys2Proof.Machine
end

section
/-! PROOFS of 20_memory.md: the outcome of every load and store (O7 to O9), and the order of the device list (O11). The
ROM alone reads, the three configuration devices alone write, and the ranges are disjoint; so which ranges contain the
address, and for memory control which word it is, decides every access. -/

namespace Sys2Proof.Machine

/-! ### The scan -/

theorem findMapping_some {ms : List Mapping} {a : Word} {m : Mapping} (h : findMapping ms a = some m) :
    m ∈ ms ∧ rangeContains m.range a = true :=
  ⟨List.mem_of_find?_eq_some h, by simpa using List.find?_some h⟩

/-- A list with the same mappings answers the same: the one that claims the address, of which there is at most one. -/
theorem findMapping_of_same_mappings {c : Config} (hc : c.wellFormed = true) {ms : List Mapping}
    (hms : ∀ m, m ∈ ms ↔ m ∈ busMappings c) (a : Word) : findMapping ms a = findMapping (busMappings c) a := by
  cases h : findMapping ms a with
  | some m =>
    obtain ⟨hm, ha⟩ := findMapping_some h
    exact (findMapping_claims hc ((hms m).mp hm) ha).symm
  | none =>
    refine (findMapping_of_unclaimed fun m hm => ?_).symm
    simpa using List.find?_eq_none.mp h m ((hms m).mpr hm)

/-! ### Accesses by the ranges that contain the address -/

theorem load32_of_misaligned {s : State} {a : Word} (h : a.toNat % 4 ≠ 0) :
    s.load32 a = .error (.unalignedAddress a) := by
  simp [State.load32, h]

theorem store32_of_misaligned {s : State} {a : Word} (v : Word) (h : a.toNat % 4 ≠ 0) :
    s.store32 a v = .error (.unalignedAddress a) := by
  simp [State.store32, h]

/-- Outside the ROM nothing reads: a configuration device does not, and no other device claims the address. -/
theorem load32_outside_rom {s : State} {a : Word} (halign : a.toNat % 4 = 0)
    (ha : rangeContains s.config.rom a = false) : s.load32 a = .error (.unmappedAddress a) := by
  cases hfind : findMapping (busMappings s.config) a with
  | none => simp [State.load32, halign, hfind]
  | some m =>
    obtain ⟨hm, hcontains⟩ := findMapping_some hfind
    simp only [busMappings, List.mem_cons, List.not_mem_nil, or_false] at hm
    obtain rfl | rfl | rfl | rfl := hm
    · simp [ha] at hcontains
    all_goals simp [State.load32, halign, hfind, deviceRead]

/-- Outside the three configuration ranges nothing takes a store: the ROM does not, and no other device claims the
address. -/
theorem store32_outside_config {s : State} {a : Word} (v : Word) (halign : a.toNat % 4 = 0)
    (hmem : rangeContains s.config.memCtrl a = false) (hram : rangeContains s.config.ramSize a = false)
    (hcache : rangeContains s.config.cacheCtrl a = false) : s.store32 a v = .error (.unmappedAddress a) := by
  cases hfind : findMapping (busMappings s.config) a with
  | none => simp [State.store32, halign, hfind]
  | some m =>
    obtain ⟨hm, hcontains⟩ := findMapping_some hfind
    simp only [busMappings, List.mem_cons, List.not_mem_nil, or_false] at hm
    obtain rfl | rfl | rfl | rfl := hm
    · simp [State.store32, halign, hfind, deviceWrite]
    · simp [hmem] at hcontains
    · simp [hram] at hcontains
    · simp [hcache] at hcontains

theorem store32_of_memCtrl {s : State} {a : Word} (v : Word) (hc : s.config.wellFormed = true)
    (halign : a.toNat % 4 = 0) (ha : rangeContains s.config.memCtrl a = true) :
    s.store32 a v = deviceWrite s a (a.toNat - s.config.memCtrl.start) v .memCtrl :=
  store32_of_claimed (m := ⟨s.config.memCtrl, .memCtrl⟩) v hc halign (by simp [busMappings]) ha

/-- The two validated words of memory control lie in its range and are aligned (00_scope.md R18). -/
theorem memCtrl_word {c : Config} (hc : c.wellFormed = true) {a : Word} {k : Nat} (hk : k < 8) (hk4 : k % 4 = 0)
    (ha : a.toNat = c.memCtrl.start + k) : a.toNat % 4 = 0 ∧ rangeContains c.memCtrl a = true := by
  obtain ⟨-, -, hmem, -, -, -, hsize, -⟩ := wellFormed_parts hc
  obtain ⟨hstart, -⟩ := (range_wellFormed_iff _).mp hmem
  rw [rangeContains_iff]
  omega

theorem store32_invalid_word0 {s : State} {a v : Word} (hc : s.config.wellFormed = true)
    (ha : a.toNat = s.config.memCtrl.start) (hv : v ≠ s.config.exp1BaseExpected) :
    s.store32 a v = .error (.invalidConfigurationWrite a v) := by
  obtain ⟨halign, hmem⟩ := memCtrl_word hc (k := 0) (by decide) (by decide) ha
  simp [store32_of_memCtrl v hc halign hmem, deviceWrite, ha, hv]

theorem store32_invalid_word1 {s : State} {a v : Word} (hc : s.config.wellFormed = true)
    (ha : a.toNat = s.config.memCtrl.start + 4) (hv : v ≠ s.config.exp2BaseExpected) :
    s.store32 a v = .error (.invalidConfigurationWrite a v) := by
  obtain ⟨halign, hmem⟩ := memCtrl_word hc (k := 4) (by decide) (by decide) ha
  simp [store32_of_memCtrl v hc halign hmem, deviceWrite, ha, hv]

/-- A store the bus accepts leaves the state as it was (20_memory.md R60 to R62). -/
theorem store32_of_accepted {s : State} {a v : Word} (hc : s.config.wellFormed = true)
    (h : StoreAccepted s.config a v) : s.store32 a v = .ok s := by
  obtain ⟨halign, ⟨hmem, hword0, hword1⟩ | hram⟩ := h
  · obtain ⟨hstart, -⟩ := (rangeContains_iff _ _).mp hmem
    have h0 : ¬ (a.toNat - s.config.memCtrl.start = 0 ∧ v ≠ s.config.exp1BaseExpected) :=
      fun ⟨hoff, hv⟩ => hv (hword0 (by omega))
    have h1 : ¬ (a.toNat - s.config.memCtrl.start = 4 ∧ v ≠ s.config.exp2BaseExpected) :=
      fun ⟨hoff, hv⟩ => hv (hword1 (by omega))
    rw [store32_of_memCtrl v hc halign hmem, deviceWrite, if_neg h0, if_neg h1]
  · exact ramSizeAndCacheControlAcceptAnyWord s a v hc halign hram

/-! ### The obligations -/

/-- Settles O8: alignment first, then the ROM, then nothing reads. -/
theorem loadOutcome : Obligations.LoadOutcome := by
  intro s a hc
  by_cases halign : a.toNat % 4 = 0
  · rw [if_neg (not_not.mpr halign)]
    by_cases hrom : rangeContains s.config.rom a = true
    · rw [if_pos hrom, load32_of_rom hc halign hrom]
    · rw [if_neg hrom, load32_outside_rom halign (Bool.eq_false_of_not_eq_true hrom)]
  · rw [if_pos halign, load32_of_misaligned halign]

/-- Settles O9, clause by clause. -/
theorem storeOutcome : Obligations.StoreOutcome :=
  fun _ _ v hc => ⟨store32_of_misaligned v, store32_of_accepted hc, store32_outside_config v,
    store32_invalid_word0 hc, store32_invalid_word1 hc⟩

/-- Settles O11: a permuted list has the same mappings. -/
theorem mappingOrderIsUnobservable : Obligations.MappingOrderIsUnobservable :=
  fun _ _ a hc hperm => findMapping_of_same_mappings hc (fun _ => hperm.mem_iff) a

/-- Settles O7: alignment is looked at first, and under the invariant `pc` is aligned, so the load at `pc` is one of the
two other outcomes. -/
theorem misalignedAccessFaultsFirst : Obligations.MisalignedAccessFaultsFirst := by
  refine ⟨fun s a v h => ⟨load32_of_misaligned h, store32_of_misaligned v h⟩, fun s a hinv => ?_⟩
  rw [loadOutcome s s.pc hinv.config_wf, if_neg (not_not.mpr hinv.pc_aligned)]
  by_cases hrom : rangeContains s.config.rom s.pc = true <;> simp [hrom]

end Sys2Proof.Machine
end

section
/-! PROOFS of 42_alu_register.md, 43_store.md and 44_jump.md: SLL (O30), OR (O31), SW (O32, O33, and that no other
instruction raises a fault, O37) and J (O34). A register instruction is one register write of a value; SW is what the
bus answers; J is one write of `pc`. -/

namespace Sys2Proof.Machine

/-! ### The values computed -/

/-- A shift left multiplies by a power of two; the word keeps the product modulo `2^32`. -/
theorem aluShiftLeft_eq_ofNat (x : Word) (shamt : BitVec 5) :
    aluShiftLeft x shamt = BitVec.ofNat 32 (x.toNat * 2 ^ shamt.toNat) := by
  apply BitVec.eq_of_toNat_eq
  rw [aluShiftLeft, BitVec.toNat_shiftLeft, Nat.shiftLeft_eq, BitVec.toNat_ofNat]

/-- Masking with `0xF0000000` keeps the four bits of the region. -/
theorem toNat_region (p : Word) : (p &&& (0xF0000000 : Word)).toNat = p.toNat / 2 ^ 28 * 2 ^ 28 := by
  have hp : p = (p.extractLsb' 28 4 ++ p.extractLsb' 0 28 : BitVec (4 + 28)) := by
    rw [BitVec.extractLsb'_append_extractLsb'_eq_extractLsb' (show 28 = 0 + 28 from rfl), BitVec.extractLsb'_eq_self]
  have hmask : (0xF0000000 : Word) = (BitVec.allOnes 4 ++ 0#28 : BitVec (4 + 28)) := by decide
  have hand : p &&& (0xF0000000 : Word) = (p.extractLsb' 28 4 ++ 0#28 : BitVec (4 + 28)) := by
    calc p &&& (0xF0000000 : Word)
        = (p.extractLsb' 28 4 ++ p.extractLsb' 0 28 : BitVec (4 + 28)) &&& (BitVec.allOnes 4 ++ 0#28) := by
          rw [← hp, hmask]
      _ = (p.extractLsb' 28 4 &&& BitVec.allOnes 4) ++ (p.extractLsb' 0 28 &&& 0#28) := BitVec.and_append
      _ = p.extractLsb' 28 4 ++ 0#28 := by rw [BitVec.and_allOnes, BitVec.and_zero]
  have hslice : (p.extractLsb' 28 4).toNat = p.toNat / 2 ^ 28 := by
    rw [toNat_slice]
    exact Nat.mod_eq_of_lt (Nat.div_lt_of_lt_mul p.isLt)
  rw [hand, BitVec.toNat_append, hslice, Nat.shiftLeft_eq, BitVec.toNat_ofNat, Nat.zero_mod, Nat.or_zero]

/-- The index times 4 fills the 28 bits below the region (44_jump.md R170). -/
theorem toNat_jumpTarget (p : Word) (target : BitVec 26) :
    (jumpTarget p target).toNat = p.toNat / 2 ^ 28 * 2 ^ 28 + target.toNat * 4 := by
  have hindex : ((target.setWidth 32 : Word) <<< 2).toNat = target.toNat * 4 := by
    rw [BitVec.toNat_shiftLeft, BitVec.toNat_setWidth, Nat.shiftLeft_eq]
    omega
  rw [jumpTarget, BitVec.toNat_or, toNat_region, hindex, ← Nat.shiftLeft_eq,
    Nat.shiftLeft_add_eq_or_of_lt (show target.toNat * 4 < 2 ^ 28 by omega)]

/-! ### SW is what the bus answers -/

theorem exec_sw_of_ok {s t : State} {rt base : RegIdx} {offset : BitVec 16}
    (h : s.store32 (effectiveAddress s base offset) (s.getReg rt) = .ok t) : exec (.sw rt offset base) s = .next t := by
  simp only [exec, execSw, h]

theorem exec_sw_of_error {s : State} {rt base : RegIdx} {offset : BitVec 16} {f : Fault}
    (h : s.store32 (effectiveAddress s base offset) (s.getReg rt) = .error f) :
    exec (.sw rt offset base) s = .next (s.raise f) := by
  simp only [exec, execSw, h]

/-! ### The obligations -/

/-- Settles O30: the two opcodes decide the arm of the decoder, under the default mask as well, and the shift is a
product. -/
theorem sllShiftsLeft : Obligations.SllShiftsLeft := by
  refine ⟨fun c w => decode_of_fnSll, fun w hw => ?_, fun s rd rt shamt => ?_⟩
  · obtain ⟨hop, hfn⟩ := (masked_op_fn_iff w Config.default.opExt Config.default.fnSll).mp (hw.trans (by decide))
    exact decode_of_fnSll (by decide) hop hfn
  · rw [← aluShiftLeft_eq_ofNat]
    exact ⟨_, rfl, writesOnly_setReg s rd _⟩

/-- Settles O31: the two opcodes decide the arm of the decoder, under the default mask as well, and a bit of the or is
the or of the bits. -/
theorem orOrsTwoRegisters : Obligations.OrOrsTwoRegisters := by
  refine ⟨fun c w => decode_of_fnOr, fun w hw => ?_, fun s rd rs rt => ?_⟩
  · obtain ⟨hop, hfn⟩ := (masked_op_fn_iff w Config.default.opExt Config.default.fnOr).mp (hw.trans (by decide))
    exact decode_of_fnOr (by decide) hop hfn
  · exact ⟨_, _, rfl, writesOnly_setReg s rd _, fun _ => BitVec.getLsbD_or⟩

/-- Settles O32: the address is the sum ADDIU computes, and the bus answers the state as it was. -/
theorem swCompletesWhereTheBusAccepts : Obligations.SwCompletesWhereTheBusAccepts :=
  fun s _ offset base => ⟨aluAdd_sext32 (s.getReg base) offset, fun hc h => exec_sw_of_ok (store32_of_accepted hc h)⟩

/-- Settles O33: the bus refuses the store with the fault named, and raising it is all SW does. -/
theorem swTrapsOnABusFault : Obligations.SwTrapsOnABusFault := by
  rintro s rt offset base _ _ hc rfl rfl
  refine ⟨fun h => exec_sw_of_error (store32_of_misaligned _ h),
    fun halign hmem hram hcache => exec_sw_of_error (store32_outside_config _ halign hmem hram hcache), ?_⟩
  rintro (⟨ha, hv⟩ | ⟨ha, hv⟩)
  · exact exec_sw_of_error (store32_invalid_word0 hc ha hv)
  · exact exec_sw_of_error (store32_invalid_word1 hc ha hv)

/-- Settles O34: J's opcode decides the arm of the decoder, and the write of `pc` is J's whole effect. -/
theorem jumpWritesPc : Obligations.JumpWritesPc :=
  ⟨fun _ _ => decode_of_opJ, fun s target =>
    ⟨s.setPc (jumpTarget s.pcNow target), rfl, fun _ => rfl, ⟨rfl, rfl, rfl, rfl, fun _ => rfl⟩,
      toNat_jumpTarget s.pcNow target⟩⟩

/-- Settles O37: the fault field changes only where the bus refuses SW's store, which it does with three faults. -/
theorem onlySwRaises : Obligations.OnlySwRaises := by
  intro i s t h hf
  obtain ⟨rt, offset, base, f, rfl, rfl, hstore⟩ := exec_changes_fault h hf
  refine ⟨rt, offset, base, rfl, ?_⟩
  rcases s.store32_cases (effectiveAddress s base offset) (s.getReg rt) with h' | h' | h' | h' <;>
    rw [hstore] at h' <;> cases h' <;> simp

end Sys2Proof.Machine
end

section
/-! PROOFS of 10_state.md sections 2, 4 and 9, 20_memory.md sections 6 and 8, and 30_encoding.md section 4: what an
instruction and a step read and leave unchanged (O35, O36, O38 to O42). An instruction with a destination writes the
one word `resultOf` there; and neither an instruction nor the bus looks at the pending word, the trace or, but for the
word at `pc`, the ROM (`State.withHidden`). -/

namespace Sys2Proof.Machine

/-! ### The word an instruction writes -/

/-- What an instruction with a destination writes there (R140 to R142, R150, R151); SW and J have none. -/
def resultOf (s : State) : Instr → Word
  | .lui _ imm => upperImm imm
  | .ori _ rs imm => aluOr (s.getReg rs) (zext32 imm)
  | .addiu _ rs imm => aluAdd (s.getReg rs) (sext32 imm)
  | .sll _ rt shamt => aluShiftLeft (s.getReg rt) shamt
  | .or _ rs rt => aluOr (s.getReg rs) (s.getReg rt)
  | .sw _ _ _ => 0
  | .j _ => 0

theorem exec_of_dest {i : Instr} {rd : RegIdx} (h : i.dest = some rd) (s : State) :
    exec i s = .next (s.setReg rd (resultOf s i)) := by
  cases i <;> cases h <;> rfl

/-- Without a destination, an instruction leaves the register file as it is. -/
theorem exec_keeps_regs {i : Instr} (hd : i.dest = none) {s t : State} (h : exec i s = .next t) : t.regs = s.regs := by
  obtain ⟨_, _, -, hsw, hj⟩ | ⟨_, _, _, -, rfl⟩ | ⟨_, _, _, f, -, rfl, -⟩ | ⟨_, -, rfl⟩ := exec_cases h
  · cases i with
    | sw => exact absurd rfl hsw
    | j => exact absurd rfl hj
    | _ => cases hd
  all_goals rfl

theorem exec_keeps_reg {i : Instr} {s t : State} (h : exec i s = .next t) {r : RegIdx} (hr : i.dest ≠ some r) :
    t.getReg r = s.getReg r := by
  cases hd : i.dest with
  | some rd =>
    rw [exec_of_dest hd] at h
    cases h
    exact s.getReg_setReg_of_ne rd r _ fun e => hr (e ▸ hd)
  | none => exact State.getReg_congr (exec_keeps_regs hd h) r

theorem exec_keeps_fault {i : Instr} {s t : State} (h : exec i s = .next t) (hsw : i.mnemonic ≠ .sw) :
    t.fault = s.fault := by
  by_contra hf
  obtain ⟨_, _, _, _, rfl, -⟩ := exec_changes_fault h hf
  exact hsw rfl

/-! ### An instruction reads its sources only -/

/-- What the bus answers to a store depends on the parameters only. -/
theorem store32_congr {s s' : State} (hc : s.config = s'.config) (a v : Word) :
    s'.store32 a v = (s.store32 a v).map fun _ => s' := by
  have hd : ∀ off d, deviceWrite s' a off v d = (deviceWrite s a off v d).map fun _ => s' := by
    intro off d
    cases d <;> simp only [deviceWrite, hc] <;> (repeat' split) <;> rfl
  unfold State.store32
  rw [hc]
  split
  · rfl
  · split
    · exact hd _ _
    · rfl

/-- An accepted store answers the state it was given. -/
theorem store32_ok {s t : State} {a v : Word} (h : s.store32 a v = .ok t) : t = s := by
  rcases s.store32_cases a v with h' | h' | h' | h' <;> rw [h] at h' <;> cases h'
  rfl

/-- SW does the same in two states that agree on its address, its value and the parameters: nothing, or raise one
fault. -/
theorem exec_sw_congr {s s' : State} {rt base : RegIdx} {offset : BitVec 16} (hc : s.config = s'.config)
    (haddr : effectiveAddress s' base offset = effectiveAddress s base offset) (hval : s'.getReg rt = s.getReg rt) :
    (exec (.sw rt offset base) s = .next s ∧ exec (.sw rt offset base) s' = .next s')
      ∨ ∃ f, exec (.sw rt offset base) s = .next (s.raise f) ∧ exec (.sw rt offset base) s' = .next (s'.raise f) := by
  have hstore := store32_congr hc (effectiveAddress s base offset) (s.getReg rt)
  cases hs : s.store32 (effectiveAddress s base offset) (s.getReg rt) with
  | ok u =>
    obtain rfl := store32_ok hs
    rw [hs, ← haddr, ← hval] at hstore
    exact .inl ⟨exec_sw_of_ok hs, exec_sw_of_ok hstore⟩
  | error f =>
    rw [hs, ← haddr, ← hval] at hstore
    exact .inr ⟨f, exec_sw_of_error hs, exec_sw_of_error hstore⟩

theorem resultOf_congr {i : Instr} {s s' : State} (h : ∀ r ∈ i.reads, s.getReg r = s'.getReg r) :
    resultOf s i = resultOf s' i := by
  cases i <;> simp_all [resultOf, Instr.reads]

theorem exec_pc_congr {i : Instr} {s s' t t' : State} (hpc : s.pc = s'.pc) (h : exec i s = .next t)
    (h' : exec i s' = .next t') : t.pc = t'.pc := by
  by_cases hj : i.mnemonic = .j
  · cases i with
    | j target => cases h; cases h'; simp [State.pcNow, hpc]
    | _ => cases hj
  · rw [exec_keeps_pc h hj, exec_keeps_pc h' hj, hpc]

theorem exec_fault_congr {i : Instr} {s s' t t' : State} (hc : s.config = s'.config) (hf : s.fault = s'.fault)
    (hreads : ∀ r ∈ i.reads, s.getReg r = s'.getReg r) (h : exec i s = .next t) (h' : exec i s' = .next t') :
    t.fault = t'.fault := by
  by_cases hsw : i.mnemonic = .sw
  · cases i with
    | sw rt offset base =>
      have hbase : s.getReg base = s'.getReg base := hreads base (by simp [Instr.reads])
      have hrt : s.getReg rt = s'.getReg rt := hreads rt (by simp [Instr.reads])
      obtain ⟨he, he'⟩ | ⟨f, he, he'⟩ := exec_sw_congr (base := base) (offset := offset) hc
        (by simp only [effectiveAddress, hbase]) hrt.symm
      all_goals
        rw [he] at h
        rw [he'] at h'
        cases h
        cases h'
      · exact hf
      · rfl
    | _ => cases hsw
  · rw [exec_keeps_fault h hsw, exec_keeps_fault h' hsw, hf]

theorem exec_dest_congr {i : Instr} {s s' t t' : State} (hreads : ∀ r ∈ i.reads, s.getReg r = s'.getReg r)
    (h : exec i s = .next t) (h' : exec i s' = .next t') {rd : RegIdx} (hd : i.dest = some rd) :
    t.getReg rd = t'.getReg rd := by
  rw [exec_of_dest hd] at h h'
  cases h
  cases h'
  by_cases h0 : rd = 0
  · subst h0; rfl
  · rw [State.getReg_setReg_self _ _ _ h0, State.getReg_setReg_self _ _ _ h0, resultOf_congr hreads]

/-! ### The no-operations (30_encoding.md R109) -/

/-- Writing a register back with its own value changes nothing. -/
theorem State.setReg_getReg_self (s : State) (i : RegIdx) : s.setReg i (s.getReg i) = s := by
  by_cases h : i = 0
  · subst h; rfl
  · simp [State.setReg, State.getReg, h]

/-- The model's no-op check accepts a destination 0, and the forms whose result is the destination's own value. -/
theorem isNoOp_cases {i : Instr} (h : i.isNoOp = true) (s : State) :
    ∃ rd, i.dest = some rd ∧ (rd = 0 ∨ resultOf s i = s.getReg rd) := by
  cases i with
  | lui rt imm => exact ⟨rt, rfl, .inl (by simpa [Instr.isNoOp] using h)⟩
  | ori rt rs imm =>
    refine ⟨rt, rfl, ?_⟩
    simp only [Instr.isNoOp, Bool.or_eq_true, Bool.and_eq_true, decide_eq_true_eq] at h
    exact h.imp_right fun ⟨hr, hi⟩ => by simp [resultOf, aluOr, zext32, hr, hi]
  | addiu rt rs imm =>
    refine ⟨rt, rfl, ?_⟩
    simp only [Instr.isNoOp, Bool.or_eq_true, Bool.and_eq_true, decide_eq_true_eq] at h
    exact h.imp_right fun ⟨hr, hi⟩ => by simp [resultOf, aluAdd, sext32, hr, hi]
  | sll rd rt shamt =>
    refine ⟨rd, rfl, ?_⟩
    simp only [Instr.isNoOp, Bool.or_eq_true, Bool.and_eq_true, decide_eq_true_eq] at h
    exact h.imp_right fun ⟨hr, hi⟩ => by simp [resultOf, aluShiftLeft, hr, hi]
  | or rd rs rt =>
    refine ⟨rd, rfl, ?_⟩
    simp only [Instr.isNoOp, Bool.or_eq_true, Bool.and_eq_true, decide_eq_true_eq] at h
    obtain ((h0 | ⟨hs, ht⟩) | ⟨hs, ht⟩) | ⟨hs, ht⟩ := h
    · exact .inl h0
    all_goals exact .inr (by simp [resultOf, aluOr, hs, ht])
  | sw rt offset base => cases h
  | j target => cases h

/-! ### What neither an instruction nor the bus looks at -/

/-- The state with another pending word, trace and ROM image. -/
def State.withHidden (s : State) (w : Word) (trace : List TraceRecord) (mem : List Host.Cell) : State :=
  { s with nextInstruction := w, trace := trace, mem := mem }

@[simp] theorem State.getReg_withHidden (s : State) (i : RegIdx) (w : Word) (trace : List TraceRecord)
    (mem : List Host.Cell) : (s.withHidden w trace mem).getReg i = s.getReg i := rfl

theorem State.setReg_withHidden (s : State) (i : RegIdx) (v w : Word) (trace : List TraceRecord)
    (mem : List Host.Cell) : (s.withHidden w trace mem).setReg i v = (s.setReg i v).withHidden w trace mem := by
  unfold State.setReg; split <;> rfl

theorem exec_withHidden {i : Instr} {s t : State} (h : exec i s = .next t) (w : Word) (trace : List TraceRecord)
    (mem : List Host.Cell) : exec i (s.withHidden w trace mem) = .next (t.withHidden w trace mem) := by
  cases hd : i.dest with
  | some rd =>
    rw [exec_of_dest hd] at h ⊢
    cases h
    exact congrArg _ ((s.setReg_withHidden rd _ w trace mem).trans
      (by rw [resultOf_congr (s' := s) fun r _ => s.getReg_withHidden r w trace mem]))
  | none =>
    cases i with
    | sw rt offset base =>
      obtain ⟨he, he'⟩ | ⟨f, he, he'⟩ := exec_sw_congr (s := s) (s' := s.withHidden w trace mem) (rt := rt)
        (base := base) (offset := offset) rfl rfl rfl
      all_goals
        rw [he] at h
        cases h
        exact he'
    | j target => cases h; rfl
    | _ => cases hd

/-- What the trace of an executed instruction gains: its record, unless it faulted. -/
def State.recorded (s : State) (word : Word) (m : Mnemonic) : List TraceRecord :=
  if s.fault = none then [⟨word, m⟩] else []

theorem State.record_trace (s : State) (word : Word) (m : Mnemonic) :
    (s.record word m).trace = s.trace ++ s.recorded word m := by
  cases hf : s.fault <;> simp [State.record, State.recorded, hf]

theorem State.record_withHidden (s : State) (w : Word) (trace : List TraceRecord) (mem : List Host.Cell) (word : Word)
    (m : Mnemonic) : (s.withHidden w trace mem).record word m
      = (s.record word m).withHidden w (trace ++ s.recorded word m) mem := by
  cases hf : s.fault <;> simp [State.record, State.recorded, State.withHidden, hf]

/-- With another trace, and another ROM image that loads the same at `pc`, a step appends the same records and does
the same otherwise. -/
theorem step_withHidden {s t : State} (h : step s = .next t) (trace : List TraceRecord) (mem : List Host.Cell)
    (hload : (s.withHidden s.nextInstruction trace mem).load32 s.pc = s.load32 s.pc) :
    ∃ added, t.trace = s.trace ++ added
      ∧ step (s.withHidden s.nextInstruction trace mem)
          = .next (t.withHidden t.nextInstruction (trace ++ added) mem) := by
  obtain ⟨hr, ⟨f, hl, rfl⟩ | ⟨w, hl, hexec⟩⟩ := step_outcomes h <;>
    have hr' : Running (s.withHidden s.nextInstruction trace mem) := hr <;>
    rw [hl] at hload
  · refine ⟨[], (List.append_nil _).symm, ?_⟩
    rw [List.append_nil]
    exact step_of_fetch_fault hr' hload
  · obtain ⟨i, u, hd, hu, rfl⟩ | ⟨hp, rfl⟩ | ⟨hp, hs, rfl⟩ := hexec
    · obtain ⟨hnext, htrace, -⟩ := exec_keeps hu
      refine ⟨u.recorded s.nextInstruction i.mnemonic, by rw [State.record_trace, htrace, State.fetched_trace], ?_⟩
      rw [State.record_nextInstruction, hnext, ← State.record_withHidden]
      exact step_of_decoded hr' hload hd (exec_withHidden hu w trace mem)
    · refine ⟨[], (List.append_nil _).symm, ?_⟩
      rw [List.append_nil]
      exact (step_of_fetch hr' hload).trans (executeWord_of_unknownPrimary hp)
    · refine ⟨[], (List.append_nil _).symm, ?_⟩
      rw [List.append_nil]
      exact (step_of_fetch hr' hload).trans (executeWord_of_unknownSecondary hp hs)

/-! ### The obligations -/

/-- Settles O35, clause by clause; the bytes, because no instruction writes storage. -/
theorem instructionFrame : Obligations.InstructionFrame := by
  intro i s t h
  obtain ⟨hnext, htrace, hmem, hconfig⟩ := exec_keeps h
  exact ⟨fun r hr => exec_keeps_reg h hr, t.getReg_zero, hnext, htrace, hconfig, State.readByte_congr hmem,
    exec_keeps_pc h, exec_keeps_fault h⟩

/-- Settles O36: the three things an instruction can write depend on its sources and on what the states agree on. -/
theorem instructionsReadOnlyTheirSources : Obligations.InstructionsReadOnlyTheirSources :=
  fun _ _ _ _ _ hpc hc hf hreads h h' =>
    ⟨exec_pc_congr hpc h h', exec_fault_congr hc hf hreads h h', fun _ => exec_dest_congr hreads h h'⟩

/-- Settles O38: the one write is to register 0, or is of the register's own value. -/
theorem noOpsChangeNothing : Obligations.NoOpsChangeNothing := by
  intro i s h
  obtain ⟨rd, hd, rfl | hown⟩ := isNoOp_cases h s
  · exact exec_of_dest hd s
  · rw [exec_of_dest hd, hown, State.setReg_getReg_self]

/-- Settles O39: the pending word is one of the three fields an instruction does not look at. -/
theorem pendingSlotIsNotTouched : Obligations.PendingSlotIsNotTouched := by
  intro i s t w h
  obtain ⟨-, htrace, hmem, -⟩ := exec_keeps h
  calc exec i { s with nextInstruction := w }
      = .next (t.withHidden w s.trace s.mem) := exec_withHidden h w s.trace s.mem
    _ = .next { t with nextInstruction := w } := by rw [← htrace, ← hmem]; rfl

/-- Settles O40: a load does not depend on the trace, so the step does not. -/
theorem traceIsNeverRead : Obligations.TraceIsNeverRead := by
  intro s t other h
  obtain ⟨added, htrace, hstep⟩ := step_withHidden h other s.mem (State.load32_congr rfl rfl s.pc)
  refine ⟨added, htrace, hstep.trans ?_⟩
  rw [← (step_keeps_construction h).1]
  rfl

/-- Settles O41: with the trace as it is and another image. -/
theorem stepReadsOnlyTheWordAtPc : Obligations.StepReadsOnlyTheWordAtPc := by
  intro s t image h hload
  obtain ⟨added, htrace, hstep⟩ := step_withHidden h s.trace image hload
  refine hstep.trans ?_
  rw [← htrace]
  rfl

/-- Settles O42: a load depends on storage and the parameters, and no step writes either. -/
theorem noStepChangesWhatIsFetched : Obligations.NoStepChangesWhatIsFetched := by
  intro s t h a
  obtain ⟨hmem, hconfig⟩ := step_keeps_construction h
  exact State.load32_congr hmem hconfig a

end Sys2Proof.Machine
end

section
/-! PROOFS of 70_reset_and_hazards.md section 1 and 10_state.md section 8: construction and reset (O1 to O4, O43, O44).
A core is constructed in `State.resetWith` over the storage of its image; `State.reset` is the core of the default
parameters and an image of zeros. -/

namespace Sys2Proof.Machine

theorem resetWith_getReg (c : Config) (rom : List Host.Cell) {r : RegIdx} (h : r ≠ 0) :
    (State.resetWith c rom).getReg r = c.regSentinel := by
  have hv : 0 ≠ r.val := fun e => h (Fin.ext e.symm)
  rw [State.getReg_of_ne _ _ h]
  simp [State.resetWith, hv]

theorem construct_of_length {c : Config} {image : List Byte} (h : image.length = c.rom.size) :
    State.construct? c image = some (State.resetWith c (Memory.ofImage c.rom.start image)) := by
  simp [State.construct?, h]

/-- The constraints of 00_scope.md R18, by evaluation. -/
theorem default_valid : Config.default.valid = true := by decide

theorem valid_parts {c : Config} (h : c.valid = true) : c.wellFormed = true ∧ c.nopWordIsNoOp = true := by
  simpa [Config.valid] using h

/-! ### The obligations -/

/-- Settles O1: the fields of `State.resetWith`, and the bytes of an image loaded at `ROM_BASE`. -/
theorem resetLeavesTheNamedValues : Obligations.ResetLeavesTheNamedValues := by
  intro c image s h
  obtain ⟨-, rfl⟩ := construct_cases h
  refine ⟨State.getReg_zero _, fun r => resetWith_getReg c _, rfl, rfl, rfl, rfl, rfl, rfl, fun o ho => ?_⟩
  calc Memory.readByte (Memory.ofImage c.rom.start image) (c.rom.start + o)
      = image.getD o Memory.unlisted := Memory.readByte_ofImage c.rom.start image o
    _ = image[o] := List.getD_eq_getElem image _ ho

/-- Settles O2: the reset state is a constructed core, and without a listed byte all storage reads as 0. -/
theorem defaultResetState : Obligations.DefaultResetState := by
  obtain ⟨hzero, hregs, hpc, hnext, hfault, htrace, hconfig, -⟩ := resetLeavesTheNamedValues _ _ _ State.construct_zeros
  exact ⟨hpc, hnext, hzero, hregs, hfault, htrace, hconfig, fun _ => rfl⟩

/-- Settles O3: the length of the image is the one thing construction checks. -/
theorem coreNeedsAFullImage : Obligations.CoreNeedsAFullImage :=
  fun _ _ => ⟨fun h => ⟨_, construct_of_length h, rfl, rfl⟩, fun h => if_neg h⟩

/-- Settles O4, by evaluating the check on the default numbers. -/
theorem defaultParametersAreValid : Obligations.DefaultParametersAreValid := default_valid

/-- Settles O44: the image is stored canonically inside the ROM, and the boot vector is aligned. -/
theorem constructionMeetsTheInvariant : Obligations.ConstructionMeetsTheInvariant :=
  fun _ _ _ => construct_meets_inv

/-- Settles O43: the reset state is a core constructed from well-formed parameters. -/
theorem resetMeetsTheInvariant : Obligations.ResetMeetsTheInvariant :=
  construct_meets_inv (valid_parts default_valid).1 State.construct_zeros

end Sys2Proof.Machine
end

section
/-! PROOFS of 60_exceptions.md section 1: the fault a step raises tells the truth (O48). Each class of addresses and
values has its own outcome on the bus, and the classes cover everything (`store_classes`); so an outcome names its
class. -/

namespace Sys2Proof.Machine

/-- A load's fault names the address, and says whether it is misaligned or outside the ROM. -/
theorem load32_error_cases {s : State} {a : Word} {f : Fault} (hc : s.config.wellFormed = true)
    (h : s.load32 a = .error f) :
    (f = .unalignedAddress a ∧ a.toNat % 4 ≠ 0)
      ∨ (f = .unmappedAddress a ∧ a.toNat % 4 = 0 ∧ rangeContains s.config.rom a = false) := by
  by_cases halign : a.toNat % 4 = 0
  · cases hrom : rangeContains s.config.rom a with
    | true => rw [load32_of_rom hc halign hrom] at h; cases h
    | false => rw [load32_outside_rom halign hrom] at h; cases h; exact .inr ⟨rfl, halign, rfl⟩
  · rw [load32_of_misaligned halign] at h
    cases h
    exact .inl ⟨rfl, halign⟩

/-- Every store is of one of these classes. -/
theorem store_classes (c : Config) (a v : Word) :
    a.toNat % 4 ≠ 0 ∨ StoreAccepted c a v
      ∨ (a.toNat % 4 = 0 ∧ rangeContains c.memCtrl a = false ∧ rangeContains c.ramSize a = false
          ∧ rangeContains c.cacheCtrl a = false)
      ∨ (a.toNat = c.memCtrl.start ∧ v ≠ c.exp1BaseExpected)
      ∨ (a.toNat = c.memCtrl.start + 4 ∧ v ≠ c.exp2BaseExpected) := by
  by_cases halign : a.toNat % 4 = 0
  · by_cases h0 : a.toNat = c.memCtrl.start ∧ v ≠ c.exp1BaseExpected
    · exact .inr (.inr (.inr (.inl h0)))
    by_cases h1 : a.toNat = c.memCtrl.start + 4 ∧ v ≠ c.exp2BaseExpected
    · exact .inr (.inr (.inr (.inr h1)))
    by_cases hin : rangeContains c.memCtrl a = true
        ∨ rangeContains c.ramSize a = true ∨ rangeContains c.cacheCtrl a = true
    · refine .inr (.inl ⟨halign, hin.imp_left fun hmem => ⟨hmem, fun ha => ?_, fun ha => ?_⟩⟩)
      · exact by_contra fun hv => h0 ⟨ha, hv⟩
      · exact by_contra fun hv => h1 ⟨ha, hv⟩
    · simp only [not_or, Bool.not_eq_true] at hin
      exact .inr (.inr (.inl ⟨halign, hin⟩))
  · exact .inl halign

/-- A store's fault names the address and the value, and says which class of stores it is. -/
theorem store32_error_cases {s : State} {a v : Word} {f : Fault} (hc : s.config.wellFormed = true)
    (h : s.store32 a v = .error f) :
    (f = .unalignedAddress a ∧ a.toNat % 4 ≠ 0)
      ∨ (f = .unmappedAddress a ∧ a.toNat % 4 = 0 ∧ rangeContains s.config.memCtrl a = false
          ∧ rangeContains s.config.ramSize a = false ∧ rangeContains s.config.cacheCtrl a = false)
      ∨ (f = .invalidConfigurationWrite a v
          ∧ (a.toNat = s.config.memCtrl.start ∧ v ≠ s.config.exp1BaseExpected
            ∨ a.toNat = s.config.memCtrl.start + 4 ∧ v ≠ s.config.exp2BaseExpected)) := by
  obtain halign | hacc | ⟨halign, hmem, hram, hcache⟩ | ⟨ha, hv⟩ | ⟨ha, hv⟩ := store_classes s.config a v
  · rw [store32_of_misaligned v halign] at h; cases h; exact .inl ⟨rfl, halign⟩
  · rw [store32_of_accepted hc hacc] at h; cases h
  · rw [store32_outside_config v halign hmem hram hcache] at h
    cases h
    exact .inr (.inl ⟨rfl, halign, hmem, hram, hcache⟩)
  · rw [store32_invalid_word0 hc ha hv] at h; cases h; exact .inr (.inr ⟨rfl, .inl ⟨ha, hv⟩⟩)
  · rw [store32_invalid_word1 hc ha hv] at h; cases h; exact .inr (.inr ⟨rfl, .inr ⟨ha, hv⟩⟩)

theorem fetchFaultTruthful_of_error {s : State} {f : Fault} (hc : s.config.wellFormed = true)
    (h : s.load32 s.pc = .error f) : FetchFaultTruthful s f := by
  obtain ⟨rfl, halign⟩ | ⟨rfl, halign, hrom⟩ := load32_error_cases hc h
  · exact ⟨rfl, halign⟩
  · exact ⟨rfl, halign, hrom⟩

/-- The refused store is the pending SW's, whose operands the fetch left as they were. -/
theorem executeFaultTruthful_of_store {s : State} {w : Word} {rt base : RegIdx} {offset : BitVec 16} {f : Fault}
    (hc : s.config.wellFormed = true) (hd : decode s.config s.nextInstruction = .ok (.sw rt offset base))
    (h : (s.fetched w).store32 (effectiveAddress (s.fetched w) base offset) ((s.fetched w).getReg rt) = .error f) :
    ExecuteFaultTruthful s f := by
  have hpending : PendingStore s (effectiveAddress s base offset) (s.getReg rt) := ⟨rt, offset, base, hd, rfl, rfl⟩
  obtain ⟨rfl, halign⟩ | ⟨rfl, houtside⟩ | ⟨rfl, hinvalid⟩ := store32_error_cases (s := s.fetched w) hc h
  · exact ⟨⟨_, hpending⟩, halign⟩
  · exact ⟨⟨_, hpending⟩, houtside⟩
  · exact ⟨hpending, hinvalid⟩

/-! ### The obligation -/

/-- Settles O48, over the ways a step can end: the fetch's fault, a store the bus refused, or a word without an
entry. -/
theorem raisedFaultsAreTruthful : Obligations.RaisedFaultsAreTruthful := by
  intro s t f hc hstep hf
  obtain ⟨hr, ⟨g, hl, rfl⟩ | ⟨w, hl, hexec⟩⟩ := step_outcomes hstep
  · cases hf
    constructor <;> intro _ hl' <;> rw [hl] at hl' <;> cases hl'
    exact ⟨rfl, fetchFaultTruthful_of_error hc hl⟩
  · constructor <;> intro _ hl' <;> rw [hl] at hl' <;> cases hl'
    obtain ⟨i, u, hd, hu, rfl⟩ | ⟨hp, rfl⟩ | ⟨hp, hs, rfl⟩ := hexec
    · rw [State.record_fault] at hf
      have hchanged : u.fault ≠ (s.fetched w).fault := by rw [hf, State.fetched_fault, hr]; simp
      obtain ⟨rt, offset, base, g, rfl, rfl, hstore⟩ := exec_changes_fault hu hchanged
      cases hf
      exact executeFaultTruthful_of_store hc hd hstore
    · cases hf; exact ⟨rfl, hp⟩
    · cases hf; exact ⟨rfl, hp, hs⟩

end Sys2Proof.Machine
end

section
/-! PROOFS of sequences of steps: the first step (O49), J and its delay slot (O50 to O52, 44_jump.md), sequential flow
and its end (O53, O54, 40_step_dispatch.md section 4), and the free-running driver (O55, 70_reset_and_hazards.md
section 5). -/

namespace Sys2Proof.Machine

/-! ### The first step -/

/-- A `NOP_WORD` that passes the check decodes, to an instruction that changes nothing. -/
theorem nopWord_decodes {c : Config} (h : c.nopWordIsNoOp = true) :
    ∃ i, decode c c.nopWord = .ok i ∧ i.isNoOp = true := by
  unfold Config.nopWordIsNoOp at h
  split at h
  · next i hd => exact ⟨i, hd, h⟩
  · cases h

/-- Settles O49: `NOP_WORD` leaves the state as the fetch of the boot word made it. -/
theorem firstStepExecutesTheNoOp : Obligations.FirstStepExecutesTheNoOp := by
  intro c image s hvalid hs hboot
  obtain ⟨hc, hnop⟩ := valid_parts hvalid
  obtain ⟨i, hd, hi⟩ := nopWord_decodes hnop
  obtain ⟨-, rfl⟩ := construct_cases hs
  have hload := load32_of_rom (s := State.resetWith c (Memory.ofImage c.rom.start image)) hc (wellFormed_parts hc).1 hboot
  refine ⟨_, i, step_of_decoded rfl hload hd (noOpsChangeNothing i _ hi), State.record_fault _ _ _,
    fun r => State.getReg_record _ _ _ r, State.record_pc _ _ _, State.record_nextInstruction _ _ _, hd, ?_⟩
  exact State.record_trace_running _ _ _ rfl

/-! ### J and its delay slot -/

/-- The step that executes a J: `pc` is the target, the word behind the J is pending, and nothing else that a later
step can see has changed. -/
theorem step_of_pending_j {s : State} {target : BitVec 26} {slot : Word} (hr : Running s)
    (hd : decode s.config s.nextInstruction = .ok (.j target)) (hl : s.load32 s.pc = .ok slot) :
    ∃ s1, step s = .next s1 ∧ Running s1 ∧ SameRegs s s1 ∧ s1.pc = jumpTarget s.pc target
      ∧ s1.nextInstruction = slot ∧ s1.mem = s.mem ∧ s1.config = s.config :=
  ⟨_, step_of_decoded hr hl hd rfl, (State.record_fault _ _ _).trans hr, fun r => State.getReg_record _ _ _ r, by simp,
    State.record_nextInstruction _ _ _, State.record_mem _ _ _, State.record_config _ _ _⟩

/-- Settles O50: the second step is that of a running state whose pending word is the delay slot's. -/
theorem delaySlotRunsBeforeTheTarget : Obligations.DelaySlotRunsBeforeTheTarget := by
  intro s target slot atTarget i hr hd hl hl' hslot
  obtain ⟨s1, hstep, hr1, hregs, hpc, hnext, hmem, hconfig⟩ := step_of_pending_j hr hd hl
  have hl1 : s1.load32 s1.pc = .ok atTarget := by rw [hpc, State.load32_congr hmem hconfig, hl']
  have hd1 : decode s1.config s1.nextInstruction = .ok i := by rw [hconfig, hnext, hslot]
  obtain ⟨u, hu⟩ := exec_answers i (s1.fetched atTarget)
  obtain ⟨hunext, -⟩ := exec_keeps hu
  refine ⟨s1, hstep, hr1, hregs, hpc, hnext, u, _, hu, step_of_decoded hr1 hl1 hd1 hu,
    fun r => State.getReg_record _ _ _ r, State.record_fault _ _ _, (State.record_nextInstruction _ _ _).trans hunext,
    fun hj => ?_⟩
  rw [State.record_pc, exec_keeps_pc hu hj, State.fetched_pc, hpc]

/-- Settles O51: the second step is that of a pending J again, with `pc` at the first target. -/
theorem jumpInADelaySlot : Obligations.JumpInADelaySlot := by
  intro s target target' slot atTarget hr hd hl hl' hslot
  obtain ⟨s1, hstep, hr1, hregs, hpc, hnext, hmem, hconfig⟩ := step_of_pending_j hr hd hl
  have hl1 : s1.load32 s1.pc = .ok atTarget := by rw [hpc, State.load32_congr hmem hconfig, hl']
  have hd1 : decode s1.config s1.nextInstruction = .ok (.j target') := by rw [hconfig, hnext, hslot]
  obtain ⟨s2, hstep2, hr2, hregs2, hpc2, hnext2, -⟩ := step_of_pending_j hr1 hd1 hl1
  exact ⟨s1, s2, hstep, hstep2, hr2, fun r => (hregs2 r).trans (hregs r), hpc ▸ hpc2, hnext2⟩

/-- Settles O52: the second step's fetch is at the target, and its fault comes first. -/
theorem jumpToAnUnloadableTarget : Obligations.JumpToAnUnloadableTarget := by
  intro s target slot f hr hd hl hl'
  obtain ⟨s1, hstep, hr1, hregs, hpc, hnext, hmem, hconfig⟩ := step_of_pending_j hr hd hl
  have hl1 : s1.load32 s1.pc = .error f := by rw [hpc, State.load32_congr hmem hconfig, hl']
  exact ⟨s1, hstep, hr1, hregs, hpc, hnext, step_of_fetch_fault hr1 hl1⟩

/-! ### Sequential flow -/

theorem step_trace_prefix {s t : State} (h : step s = .next t) : s.trace <+: t.trace := by
  obtain ⟨-, i, -, htrace⟩ | ⟨-, htrace⟩ := step_trace h
  · exact ⟨_, htrace.symm⟩
  · rw [htrace]

theorem run_trace_prefix {n : Nat} {s t : State} (h : Host.Core.run Sys2Proof.core n s = .next t) :
    s.trace <+: t.trace := by
  induction n generalizing s with
  | zero => cases h; exact List.prefix_rfl
  | succ n ih =>
    obtain ⟨u, hstep, hrun⟩ := run_succ_cases h
    exact (step_trace_prefix hstep).trans (ih hrun)

/-- No step leads out of a faulted state, so a run that ends without a fault began without one. -/
theorem running_of_run {n : Nat} {s t : State} (h : Host.Core.run Sys2Proof.core n s = .next t) (ht : Running t) :
    Running s := by
  cases n with
  | zero => cases h; exact ht
  | succ n =>
    obtain ⟨u, hstep, -⟩ := run_succ_cases h
    exact (step_cases hstep).1

/-- One step of sequential flow: it completes, and the record it appends is not of a J. -/
theorem CompletesTo.straight {s t : State} (h : CompletesTo s t)
    (hj : ∀ r ∈ t.trace.drop s.trace.length, r.mnemonic ≠ .j) :
    t.pc = s.pc + 4 ∧ t.trace.length = s.trace.length + 1 ∧ s.load32 s.pc = .ok t.nextInstruction := by
  obtain ⟨-, w, i, u, hl, -, hu, hru, rfl⟩ := h.decoded
  obtain ⟨hnext, htrace, -⟩ := exec_keeps hu
  rw [State.record_trace_running _ _ _ hru, htrace, State.fetched_trace] at hj ⊢
  refine ⟨?_, by simp, by rw [State.record_nextInstruction, hnext, hl]; rfl⟩
  rw [State.record_pc, exec_keeps_pc hu (hj ⟨s.nextInstruction, i.mnemonic⟩ (by simp)), State.fetched_pc]

/-- Settles O53, by induction on the number of steps: the first step is one of sequential flow, since its record is
still in the last trace. -/
theorem straightLineRun : Obligations.StraightLineRun := by
  intro n
  induction n with
  | zero =>
    rintro s _ ⟨⟩ - -
    simp
  | succ n ih =>
    intro s t h ht hj
    obtain ⟨u, hstep, hrun⟩ := run_succ_cases h
    have hju : ∀ r ∈ u.trace.drop s.trace.length, r.mnemonic ≠ .j := fun r hr =>
      hj r (((run_trace_prefix hrun).drop _).subset hr)
    obtain ⟨hpc, hlen, hload⟩ := CompletesTo.straight ⟨hstep, running_of_run hrun ht⟩ hju
    obtain ⟨hpc', hlen', hload'⟩ := ih u t hrun ht fun r hr => hj r (List.drop_subset_drop_left _ (by omega) hr)
    refine ⟨?_, by omega, fun _ => ?_⟩
    · rw [hpc', hpc, Nat.mul_succ, Nat.add_comm, BitVec.ofNat_add, BitVec.add_assoc]
      rfl
    · cases n with
      | zero =>
        cases hrun
        rw [hpc, BitVec.add_sub_cancel, hload]
      | succ n => rw [← noStepChangesWhatIsFetched s u hstep, hload' (Nat.succ_pos n)]

/-- Settles O54: under the invariant `pc` is aligned, and outside the ROM no aligned address loads. -/
theorem fetchOutsideTheRomFaults : Obligations.FetchOutsideTheRomFaults :=
  fun _ hinv hr hrom => step_of_fetch_fault hr (load32_outside_rom hinv.pc_aligned hrom)

/-! ### The free-running driver -/

/-- The driver's steps add up. -/
theorem freeRun_add (n k : Nat) (s : State) : freeRun (n + k) s = freeRun k (freeRun n s) := by
  induction n generalizing s with
  | zero => rw [Nat.zero_add]; rfl
  | succ n ih =>
    cases hf : s.fault with
    | none =>
      obtain ⟨t, ht⟩ := step_of_running hf
      rw [Nat.succ_add, freeRun_succ _ ht, freeRun_succ _ ht, ih]
    | some f => rw [freeRun_of_fault _ hf, freeRun_of_fault _ hf, freeRun_of_fault _ hf]

/-- Settles O55: the further steps start in a faulted state. -/
theorem freeRunStopsAtAFault : Obligations.FreeRunStopsAtAFault := by
  intro n k s h
  obtain ⟨f, hf⟩ := Option.ne_none_iff_exists'.mp h
  rw [freeRun_add, freeRun_of_fault k hf]

end Sys2Proof.Machine
end

section
/-! PROOFS of 30_encoding.md section 5: assembled words keep their operands (O56). The words decode by `decode_encode`;
what is left is that each operand in its range fits its field. -/

namespace Sys2Proof

/-! ### Operands in their ranges fit their fields (R110) -/

theorem val_of_asmReg {n : Nat} (h : asmReg n = true) : (Fin.ofNat 32 n).val = n :=
  Nat.mod_eq_of_lt (of_decide_eq_true h)

theorem toNat_of_asmUImm {n : Nat} (h : asmUImm n = true) : (BitVec.ofNat 16 n).toNat = n :=
  Nat.mod_eq_of_lt (Nat.lt_succ_of_le (of_decide_eq_true h))

theorem toInt_of_asmSImm {n : Int} (h : asmSImm n = true) : (BitVec.ofInt 16 n).toInt = n := by
  simp only [asmSImm, Bool.and_eq_true, decide_eq_true_eq] at h
  obtain ⟨hlo, hhi⟩ := h
  exact BitVec.toInt_ofInt_eq_self (by decide) (by omega) (by omega)

/-- The instruction a well-formed line stands for holds the operands written. -/
theorem toInstr_spells {next : Word} {a : Asm} (h : a.wellFormed next = true) : a.Spells a.toInstr := by
  cases a with
  | lui rt imm =>
    simp only [Asm.wellFormed, Bool.and_eq_true] at h
    obtain ⟨ht, hi⟩ := h
    exact ⟨_, _, rfl, val_of_asmReg ht, toNat_of_asmUImm hi⟩
  | ori rt rs imm =>
    simp only [Asm.wellFormed, Bool.and_eq_true] at h
    obtain ⟨⟨ht, hs⟩, hi⟩ := h
    exact ⟨_, _, _, rfl, val_of_asmReg ht, val_of_asmReg hs, toNat_of_asmUImm hi⟩
  | addiu rt rs simm =>
    simp only [Asm.wellFormed, Bool.and_eq_true] at h
    obtain ⟨⟨ht, hs⟩, hi⟩ := h
    exact ⟨_, _, _, rfl, val_of_asmReg ht, val_of_asmReg hs, toInt_of_asmSImm hi⟩
  | sll rd rt shamt =>
    simp only [Asm.wellFormed, Bool.and_eq_true, decide_eq_true_eq] at h
    obtain ⟨⟨hd, ht⟩, hsh⟩ := h
    exact ⟨_, _, _, rfl, val_of_asmReg hd, val_of_asmReg ht, Nat.mod_eq_of_lt hsh⟩
  | or rd rs rt =>
    simp only [Asm.wellFormed, Bool.and_eq_true] at h
    obtain ⟨⟨hd, hs⟩, ht⟩ := h
    exact ⟨_, _, _, rfl, val_of_asmReg hd, val_of_asmReg hs, val_of_asmReg ht⟩
  | sw rt offset base =>
    simp only [Asm.wellFormed, Bool.and_eq_true] at h
    obtain ⟨⟨ht, ho⟩, hb⟩ := h
    exact ⟨_, _, _, rfl, val_of_asmReg ht, toInt_of_asmSImm ho, val_of_asmReg hb⟩
  | j addr => exact ⟨_, rfl, BitVec.toNat_ofNat _ _⟩
  | nop => rfl

end Sys2Proof

namespace Sys2Proof.Machine

/-- A well-formed jump reaches the address written: the region is that of the address, and the index is the rest. -/
theorem toNat_jumpTarget_of_wellFormed {p : Word} {addr : Nat} (h : Asm.wellFormed p (.j addr) = true) :
    (jumpTarget p (BitVec.ofNat 26 (addr / 4))).toNat = addr := by
  simp only [Asm.wellFormed, Bool.and_eq_true, decide_eq_true_eq] at h
  obtain ⟨halign, hregion⟩ := h
  rw [toNat_jumpTarget, BitVec.toNat_ofNat, ← hregion]
  omega

/-! ### The obligation -/

/-- Settles O56: assembling is encoding, `nop` is evaluated, and the two results are those of `exec` at operands that
fit their fields. -/
theorem assembledWordsKeepTheirOperands : Obligations.AssembledWordsKeepTheirOperands := by
  refine ⟨fun c a hc => decode_encode hc a.toInstr, ?_, by decide, ?_, ?_⟩
  · intro c next a hc h
    exact ⟨_, decode_encode hc a.toInstr, toInstr_spells h⟩
  · intro s addr h
    exact ⟨_, rfl, toNat_jumpTarget_of_wellFormed h⟩
  · intro s next rt rs simm h hrt
    refine ⟨_, rfl, ?_⟩
    simp only [Asm.wellFormed, Bool.and_eq_true] at h
    obtain ⟨⟨ht, -⟩, hi⟩ := h
    have hne : Fin.ofNat 32 rt ≠ 0 := fun e => hrt ((val_of_asmReg ht).symm.trans (congrArg Fin.val e))
    rw [State.getReg_setReg_self _ _ _ hne, aluAdd_sext32, toInt_of_asmSImm hi]

end Sys2Proof.Machine
end
